-- ==== Sys2Proof/Word.lean ====
section
/-! DEFINITION. The 32-bit word of the engine (R7) and the name of a line (R5, R18). Addition of words is `+` on
`BitVec 32`, which is R8's sum modulo 2^32 with the carry dropped; `&&&`, `|||`, `^^^`, `~~~` are R9's operators. -/

namespace Sys2Proof

/-- R7: an unsigned integer of 32 bits, bit 31 the most significant. -/
abbrev Word := BitVec 32

/-- R5, R18: one of the two 80-round computations. -/
inductive Line where
  | left
  | right
deriving DecidableEq, Repr, Inhabited

end Sys2Proof
end

