-- ==== Sys2Proof/Machine/Combinators.lean ====
section
/-! DEFINITION. The five boolean combinators of 41_round_function_selector.md. -/

namespace Sys2Proof.Machine

/-- R68. -/
def F0 (x y z : Word) : Word := x ^^^ y ^^^ z

/-- R69. -/
def F1 (x y z : Word) : Word := (x &&& y) ||| (~~~x &&& z)

/-- R70. -/
def F2 (x y z : Word) : Word := (x ||| ~~~y) ^^^ z

/-- R71. -/
def F3 (x y z : Word) : Word := (x &&& z) ||| (y &&& ~~~z)

/-- R72. -/
def F4 (x y z : Word) : Word := x ^^^ (y ||| ~~~z)

end Sys2Proof.Machine
end

