-- ==== Sys2Proof/Config.lean ====
section
/-! DEFINITION. What the spec leaves open: the parameter types `Tables` (TABLES, D28, R86) and `Turn` (SCHEDULE, D10,
R98), and the free values, which are constants without a body. LATENCY (D25, R126) has no counterpart: the model has
transitions and no time. -/

namespace Sys2Proof

/-- R86, D28: the parameter `TABLES`, the two tables the source document announces and does not contain: for each
line 80 message indices in 0..15 (R77) and 80 rotation amounts, in the 4 bits that the control word has for them
(R54). The values the spec supplies are `Machine.suppliedTables`. -/
structure Tables where
  msgLeft  : Vector (BitVec 4) 80
  msgRight : Vector (BitVec 4) 80
  rotLeft  : Vector (BitVec 4) 80
  rotRight : Vector (BitVec 4) 80
deriving DecidableEq, Repr

/-- R98: what SCHEDULE takes in a state of RUN in which both lines are enabled: the round of one line, or the rounds
of both in one clock cycle, "which equals taking one and then the other, in either order": `both l` is line `l` first. -/
inductive Turn where
  | one (l : Line)
  | both (first : Line)
deriving DecidableEq, Repr, Inhabited

/-- FREE VALUE (log 4): the n-th choice of SCHEDULE where the state's own script of choices is exhausted (R98). -/
opaque Config.schedule : Nat → Turn

/-- FREE VALUE (log 5): the n-th word that a register which reset leaves unspecified may hold (R30, R116, U1). -/
opaque Config.freeWord : Nat → Word

end Sys2Proof
end

