-- ==== Sys2Proof/Syntax.lean ====
section
/-! DEFINITION. The instructions: one constructor per row of the opcode table. The four host commands (format CMD,
R47, R48) keep the 32 bits of `data` even where R49 says they are ignored, so that no bit of an encoding is lost; the
five control-word forms (format CW, R52, R53) keep the message index `r` and the rotation amount `s`. -/

namespace Sys2Proof

/-- R48 and R53: what a command word or a control word asks for. -/
inductive Instr where
  /-- R64: nothing is presented; `data` ignored. -/
  | nop (data : Word)
  /-- R61: create a new CompressionState; `data` ignored. -/
  | init (data : Word)
  /-- R62: append the word `d` to the block buffer. -/
  | push (d : Word)
  /-- R63: compress the buffered block into the state; `data` ignored. -/
  | compress (data : Word)
  /-- R68: one round with combinator F0, block word `X[r]`, rotation by `s`. -/
  | rndF0 (r s : BitVec 4)
  /-- R69: one round with combinator F1. -/
  | rndF1 (r s : BitVec 4)
  /-- R70: one round with combinator F2. -/
  | rndF2 (r s : BitVec 4)
  /-- R71: one round with combinator F3. -/
  | rndF3 (r s : BitVec 4)
  /-- R72: one round with combinator F4. -/
  | rndF4 (r s : BitVec 4)
deriving DecidableEq, Repr

end Sys2Proof
end

