-- ==== Sys2Proof/Decode.lean ====
section
/-! DEFINITION. The encodings of 30_encoding.md. A command word has 34 bits and is decoded from bits 33:32 alone (R46,
R47, R48); a control word has 11 bits and is decoded from bits 10:8 alone (R52, R53). Every command word is legal
(R50); a control word with `fsel` 5, 6 or 7 is reserved and is rejected by name (R53). The encoder follows. -/

namespace Sys2Proof

/-- Why a word is no instruction. -/
inductive DecodeReject where
  /-- R53: the combinator selector is 5, 6 or 7. -/
  | reservedFsel (fsel : BitVec 3)
deriving DecidableEq, Repr

/-- R46: the two encoded formats. -/
inductive CodeWord where
  /-- Format CMD, 34 bits (R47). -/
  | cmd (w : BitVec 34)
  /-- Format CW, 11 bits (R52). -/
  | cw (w : BitVec 11)
deriving DecidableEq, Repr

/-- R47: the command selector, bits 33:32. -/
def cmdOp (w : BitVec 34) : BitVec 2 := w.extractLsb' 32 2

/-- R47, R49: the data word, bits 31:0, bit for bit. -/
def cmdData (w : BitVec 34) : Word := w.extractLsb' 0 32

/-- R52: the combinator selector, bits 10:8. -/
def cwFsel (w : BitVec 11) : BitVec 3 := w.extractLsb' 8 3

/-- R52: the message index, bits 7:4. -/
def cwR (w : BitVec 11) : BitVec 4 := w.extractLsb' 4 4

/-- R52: the rotation amount, bits 3:0. -/
def cwS (w : BitVec 11) : BitVec 4 := w.extractLsb' 0 4

/-- R48: all four values of `op` are defined, so a command word always decodes (R50). -/
def decodeCmd (w : BitVec 34) : Instr :=
  if cmdOp w = 0 then .nop (cmdData w)
  else if cmdOp w = 1 then .init (cmdData w)
  else if cmdOp w = 2 then .push (cmdData w)
  else .compress (cmdData w)

/-- R53: the `fsel` map; a reserved selector is no instruction. -/
def decodeCw (w : BitVec 11) : Except DecodeReject Instr :=
  if cwFsel w = 0 then .ok (.rndF0 (cwR w) (cwS w))
  else if cwFsel w = 1 then .ok (.rndF1 (cwR w) (cwS w))
  else if cwFsel w = 2 then .ok (.rndF2 (cwR w) (cwS w))
  else if cwFsel w = 3 then .ok (.rndF3 (cwR w) (cwS w))
  else if cwFsel w = 4 then .ok (.rndF4 (cwR w) (cwS w))
  else .error (.reservedFsel (cwFsel w))

/-- Both formats: the instruction a word stands for, or the name of why there is none. -/
def decode : CodeWord → Except DecodeReject Instr
  | .cmd w => .ok (decodeCmd w)
  | .cw w => decodeCw w

/-- R47: `op * 2^32 + data`. -/
def packCmd (op : BitVec 2) (data : Word) : BitVec 34 := op ++ data

/-- R52: `fsel * 256 + r * 16 + s`. -/
def packCw (fsel : BitVec 3) (r s : BitVec 4) : BitVec 11 := (fsel ++ r) ++ s

/-- The word of an instruction (R48, R53). -/
def encode : Instr → CodeWord
  | .nop d => .cmd (packCmd 0 d)
  | .init d => .cmd (packCmd 1 d)
  | .push d => .cmd (packCmd 2 d)
  | .compress d => .cmd (packCmd 3 d)
  | .rndF0 r s => .cw (packCw 0 r s)
  | .rndF1 r s => .cw (packCw 1 r s)
  | .rndF2 r s => .cw (packCw 2 r s)
  | .rndF3 r s => .cw (packCw 3 r s)
  | .rndF4 r s => .cw (packCw 4 r s)

/-- The word of a table row of `nbits` bits, as a word of the row's format: the table's rows of 11 bits (16 in whole
bytes) are control words, those of 34 bits (40 in whole bytes) command words. None where a bit above the format's
width is set. -/
def tableWord (nbits w : Nat) : Option CodeWord :=
  if nbits ≤ 16 then
    if w < 2 ^ 11 then some (.cw (BitVec.ofNat 11 w)) else none
  else
    if w < 2 ^ 34 then some (.cmd (BitVec.ofNat 34 w)) else none

/-- The instruction the decoder reads from the word `w` of a row of `nbits` bits of the opcode table. -/
def decodeTableWord (nbits w : Nat) : Option Instr :=
  (tableWord nbits w).bind fun c => (decode c).toOption

end Sys2Proof
end

