-- ==== Sys2Proof/Machine/Tables.lean ====
section
/-! DEFINITION. The constants of the step relation (R13): the initial constants (R17), the bands (R67), the combinator
number of each line and round (R73, R74), the supplied tables (R78 to R80), the constant ROM (R55, R81), ExtraRotate
(R82), and the schedule ROM: how TABLES are packed into control words (R52, D24) and the image of R84. Every lookup has
the domain (line, 0..79) or (line, 0..4) and no other (R51, R55, R75, R83). -/

namespace Sys2Proof.Machine

/-- R16: the CompressionState, five words `h[0]` to `h[4]`. -/
structure StateWords where
  h0 : Word
  h1 : Word
  h2 : Word
  h3 : Word
  h4 : Word
deriving DecidableEq, Repr

/-- R51, R36: the used entries of the schedule ROM: for each line the control words of rounds 0..79. -/
structure Rom where
  left  : Vector (BitVec 11) 80
  right : Vector (BitVec 11) 80
deriving DecidableEq, Repr

/-- R17: the initial constants. -/
def initialConstants : StateWords := ⟨0x67452301, 0xEFCDAB89, 0x98BADCFE, 0x10325476, 0xC3D2E1F0⟩

/-- R67: `floor(j / 16)`, a value in 0..4 for a round number in 0..79. -/
def band (j : Fin 80) : Fin 5 := ⟨j.val / 16, by omega⟩

/-- R73: the combinator number of `RoundFunction(j)`. -/
def roundFunction (j : Fin 80) : BitVec 3 := BitVec.ofNat 3 (band j).val

/-- R74: the round whose combinator a line uses at round `j`: `j` on the left line, the mirrored `79 - j` on the right. -/
def selectorRound : Line → Fin 80 → Fin 80
  | .left, j => j
  | .right, j => ⟨79 - j.val, by omega⟩

/-- R73, R74: the `fsel` of a line's control word for round `j`. -/
def roundFsel (l : Line) (j : Fin 80) : BitVec 3 := roundFunction (selectorRound l j)

/-- R78 to R80: the tables the spec supplies from general knowledge (G1, G2). -/
def suppliedTables : Tables where
  msgLeft := ⟨⟨
    [0, 1, 2, 3, 4, 5, 6, 7, 8, 9, 10, 11, 12, 13, 14, 15] ++
    [7, 4, 13, 1, 10, 6, 15, 3, 12, 0, 9, 5, 2, 14, 11, 8] ++
    [3, 10, 14, 4, 9, 15, 8, 1, 2, 7, 0, 6, 13, 11, 5, 12] ++
    [1, 9, 11, 10, 0, 8, 12, 4, 13, 3, 7, 15, 14, 5, 6, 2] ++
    [4, 0, 5, 9, 7, 12, 2, 10, 14, 1, 3, 8, 11, 6, 15, 13]⟩, rfl⟩
  msgRight := ⟨⟨
    [5, 14, 7, 0, 9, 2, 11, 4, 13, 6, 15, 8, 1, 10, 3, 12] ++
    [6, 11, 3, 7, 0, 13, 5, 10, 14, 15, 8, 12, 4, 9, 1, 2] ++
    [15, 5, 1, 3, 7, 14, 6, 9, 11, 8, 12, 2, 10, 0, 4, 13] ++
    [8, 6, 4, 1, 3, 11, 15, 0, 5, 12, 2, 13, 9, 7, 10, 14] ++
    [12, 15, 10, 4, 1, 5, 8, 7, 6, 2, 13, 14, 0, 3, 9, 11]⟩, rfl⟩
  rotLeft := ⟨⟨
    [11, 14, 15, 12, 5, 8, 7, 9, 11, 13, 14, 15, 6, 7, 9, 8] ++
    [7, 6, 8, 13, 11, 9, 7, 15, 7, 12, 15, 9, 11, 7, 13, 12] ++
    [11, 13, 6, 7, 14, 9, 13, 15, 14, 8, 13, 6, 5, 12, 7, 5] ++
    [11, 12, 14, 15, 14, 15, 9, 8, 9, 14, 5, 6, 8, 6, 5, 12] ++
    [9, 15, 5, 11, 6, 8, 13, 12, 5, 12, 13, 14, 11, 8, 5, 6]⟩, rfl⟩
  rotRight := ⟨⟨
    [8, 9, 9, 11, 13, 15, 15, 5, 7, 7, 8, 11, 14, 14, 12, 6] ++
    [9, 13, 15, 7, 12, 8, 9, 11, 7, 7, 12, 7, 6, 15, 13, 11] ++
    [9, 7, 15, 11, 8, 6, 6, 14, 12, 13, 5, 14, 13, 13, 7, 5] ++
    [15, 5, 8, 11, 14, 14, 6, 14, 6, 9, 12, 9, 12, 5, 15, 8] ++
    [8, 5, 12, 9, 12, 5, 14, 6, 8, 13, 6, 5, 15, 13, 11, 11]⟩, rfl⟩

/-- R77: `MessageIndex[line][round]`. -/
def messageIndex (t : Tables) (l : Line) (j : Fin 80) : BitVec 4 :=
  match l with
  | .left => t.msgLeft[j]
  | .right => t.msgRight[j]

/-- R77: `RotationAmount[line][round]`. -/
def rotationAmount (t : Tables) (l : Line) (j : Fin 80) : BitVec 4 :=
  match l with
  | .left => t.rotLeft[j]
  | .right => t.rotRight[j]

/-- R81: the five additive constants of a line, `K[line][band]`. -/
def constants : Line → Vector Word 5
  | .left => #v[0x00000000, 0x5A827999, 0x6ED9EBA1, 0x8F1BBCDC, 0xA953FD4E]
  | .right => #v[0x50A28BE6, 0x5C4DD124, 0x6D703EF3, 0x7A6D76E9, 0x00000000]

/-- R36, R55: `KROM(line, b)`, the constant ROM's entry for a line and a band in 0..4. -/
def krom (l : Line) (b : Fin 5) : Word := (constants l)[b]

/-- R81: `RoundConstant[line][j] = K[line][band(j)]`; the band is that of `j` on both lines. -/
def roundConstant (l : Line) (j : Fin 80) : Word := krom l (band j)

/-- R82: ExtraRotate. -/
def extraRotate : Nat := 10

/-- R36: `ROM(line, j)`. -/
def romRead (m : Rom) (l : Line) (j : Fin 80) : BitVec 11 :=
  match l with
  | .left => m.left[j]
  | .right => m.right[j]

/-- R52, D24: the control word of a line and a round, packed from TABLES and the selector. -/
def controlWord (t : Tables) (l : Line) (j : Fin 80) : BitVec 11 :=
  packCw (roundFsel l j) (messageIndex t l j) (rotationAmount t l j)

/-- D24: the schedule ROM that holds given TABLES. -/
def packRom (t : Tables) : Rom where
  left := Vector.ofFn (controlWord t .left)
  right := Vector.ofFn (controlWord t .right)

/-- R84: the image of the schedule ROM. -/
def romImage : Rom where
  left := ⟨⟨
    [0x00B, 0x01E, 0x02F, 0x03C, 0x045, 0x058, 0x067, 0x079, 0x08B, 0x09D, 0x0AE, 0x0BF, 0x0C6, 0x0D7, 0x0E9, 0x0F8] ++
    [0x177, 0x146, 0x1D8, 0x11D, 0x1AB, 0x169, 0x1F7, 0x13F, 0x1C7, 0x10C, 0x19F, 0x159, 0x12B, 0x1E7, 0x1BD, 0x18C] ++
    [0x23B, 0x2AD, 0x2E6, 0x247, 0x29E, 0x2F9, 0x28D, 0x21F, 0x22E, 0x278, 0x20D, 0x266, 0x2D5, 0x2BC, 0x257, 0x2C5] ++
    [0x31B, 0x39C, 0x3BE, 0x3AF, 0x30E, 0x38F, 0x3C9, 0x348, 0x3D9, 0x33E, 0x375, 0x3F6, 0x3E8, 0x356, 0x365, 0x32C] ++
    [0x449, 0x40F, 0x455, 0x49B, 0x476, 0x4C8, 0x42D, 0x4AC, 0x4E5, 0x41C, 0x43D, 0x48E, 0x4BB, 0x468, 0x4F5, 0x4D6]⟩, rfl⟩
  right := ⟨⟨
    [0x458, 0x4E9, 0x479, 0x40B, 0x49D, 0x42F, 0x4BF, 0x445, 0x4D7, 0x467, 0x4F8, 0x48B, 0x41E, 0x4AE, 0x43C, 0x4C6] ++
    [0x369, 0x3BD, 0x33F, 0x377, 0x30C, 0x3D8, 0x359, 0x3AB, 0x3E7, 0x3F7, 0x38C, 0x3C7, 0x346, 0x39F, 0x31D, 0x32B] ++
    [0x2F9, 0x257, 0x21F, 0x23B, 0x278, 0x2E6, 0x266, 0x29E, 0x2BC, 0x28D, 0x2C5, 0x22E, 0x2AD, 0x20D, 0x247, 0x2D5] ++
    [0x18F, 0x165, 0x148, 0x11B, 0x13E, 0x1BE, 0x1F6, 0x10E, 0x156, 0x1C9, 0x12C, 0x1D9, 0x19C, 0x175, 0x1AF, 0x1E8] ++
    [0x0C8, 0x0F5, 0x0AC, 0x049, 0x01C, 0x055, 0x08E, 0x076, 0x068, 0x02D, 0x0D6, 0x0E5, 0x00F, 0x03D, 0x09B, 0x0BB]⟩, rfl⟩

end Sys2Proof.Machine
end

