-- ==== Sys2Proof/Machine/State.lean ====
section
/-! DEFINITION. The state of one engine: the ten rows of R12, and beside them what the model needs to hold a machine
whose inputs and open choices come from outside: the coming samples of the input pins, the coming choices of SCHEDULE,
the line a round is granted to, the count of free values drawn, and the content of the schedule ROM. Then the two
reasons a step can stop, and the state after reset. -/

namespace Sys2Proof.Machine

/-- R19: the sequencer phase. The fourth value of the 2-bit register is left out of the type (U7). -/
inductive Phase where
  /-- 0: no compression in progress; commands are accepted. -/
  | idle
  /-- 1: a compression is in progress. -/
  | run
  /-- 2: InvalidRoundIndex was raised; only reset leaves it. -/
  | halt
deriving DecidableEq, Repr

/-- R18: the five working registers of one line. -/
structure LineRegs where
  A : Word
  B : Word
  C : Word
  D : Word
  E : Word
deriving DecidableEq, Repr

/-- R46: one sample of the two input pins, RST and CMD, at one clock edge. -/
structure Pins where
  rst : Bool
  cmd : BitVec 34
deriving DecidableEq, Repr

/-- The machine. The fields down to `ERI` are R12's record; the others are the model's own (log 1 to 4, 6). -/
structure State where
  /-- R16: the state words `h[0..4]`. -/
  h : StateWords
  /-- R18: the working registers of the left line. -/
  L : LineRegs
  /-- R18: the working registers of the right line. -/
  R : LineRegs
  /-- R21: the block buffer `X[0..15]`. -/
  X : Vector Word 16
  /-- R22: the block fill counter. -/
  wcnt : BitVec 5
  /-- R19: the sequencer phase. -/
  phase : Phase
  /-- R20: the round counter of the left line. -/
  jL : BitVec 7
  /-- R20: the round counter of the right line. -/
  jR : BitVec 7
  /-- R23: the InvalidBlockSize flag. -/
  EBS : Bool
  /-- R24: the InvalidRoundIndex flag. -/
  ERI : Bool
  /-- R51, D28: the content of the schedule ROM, the packed parameter TABLES; no step writes it (R37). -/
  rom : Rom
  /-- The samples of RST and CMD at the coming clock edges, first the next; past the end the pins are idle. -/
  pins : List Pins
  /-- The coming choices of SCHEDULE (R98), first the next; past the end they are free values. -/
  sched : List Turn
  /-- The line the control word that is being executed belongs to (R58: RND.L or RND.R). -/
  grant : Line
  /-- How many free values have been drawn. -/
  draws : Nat
deriving DecidableEq, Repr

/-- The faults. There is none: both error kinds of R100 leave the machine in a state that the spec describes
(R101, R102), and each is taken as a next state with its flag written; nothing else raises an error (R104). -/
inductive Fault where
deriving DecidableEq, Repr

/-- The refusals. -/
inductive Refusal where
  /-- Raised by `exec` alone, for an instruction that has no meaning yet; no arm raises it now. Safe: the machine stops. -/
  | notModelled (mnemonic : String)
deriving DecidableEq, Repr

/-- The outcome of a step of this machine. -/
abbrev Outcome := Host.Outcome State Fault Refusal

/-- R30: the state after reset. The working registers and the block buffer, which R30 leaves unspecified, hold 0 here
(log 7, DESIGN CHOICE); no sample of the pins and no choice of SCHEDULE is listed; the ROM holds the image of R84. -/
def State.reset : State where
  h := initialConstants
  L := ⟨0, 0, 0, 0, 0⟩
  R := ⟨0, 0, 0, 0, 0⟩
  X := #v[0, 0, 0, 0, 0, 0, 0, 0, 0, 0, 0, 0, 0, 0, 0, 0]
  wcnt := 0
  phase := .idle
  jL := 0
  jR := 0
  EBS := false
  ERI := false
  rom := romImage
  pins := []
  sched := []
  grant := .left
  draws := 0

end Sys2Proof.Machine
end

