-- ==== Sys2Proof/Machine/Operands.lean ====
section
/-! DEFINITION. What the instructions read and write: the block buffer by index (R33, R34), the registers and the
counter of a line (R18, R20), the pins (R46) and the choice of SCHEDULE (R98). The operand of PUSH is `CMD[31:0]`
bit for bit (R49), which `cmdData` gives; a round's operands `r` and `s` are used as they stand (R54). -/

namespace Sys2Proof.Machine

/-- R33: `MemRead(i, 4)`, the whole word `X[i]`. -/
def memRead (s : State) (i : BitVec 4) : Word := s.X[i.toNat]'i.isLt

/-- R34: `MemWrite(i, 4, v)` for `i` in 0..15. -/
def memWrite (s : State) (i : Fin 16) (v : Word) : State := { s with X := s.X.set i v }

/-- R18: the five working registers of a line. -/
def State.regs (s : State) : Line → LineRegs
  | .left => s.L
  | .right => s.R

/-- R20: the round counter of a line. -/
def State.ctr (s : State) : Line → BitVec 7
  | .left => s.jL
  | .right => s.jR

/-- R89, R90: what a round writes, the registers and the counter of its line. -/
def State.setLine (s : State) (l : Line) (t : LineRegs) (j : BitVec 7) : State :=
  match l with
  | .left => { s with L := t, jL := j }
  | .right => { s with R := t, jR := j }

/-- The other of the two lines. -/
def otherLine : Line → Line
  | .left => .right
  | .right => .left

/-- Pins on which nothing is presented: no reset, and a NOP (R64). -/
def idlePins : Pins := ⟨false, 0⟩

/-- R60: the values of RST and CMD at the coming clock edge (log 2: past the listed samples the pins are idle). -/
def State.nextPins (s : State) : Pins := s.pins.headD idlePins

/-- The state once the coming clock edge's sample is used up. -/
def State.dropPins (s : State) : State := { s with pins := s.pins.tail }

/-- R98: the choice SCHEDULE makes in this state, the head of the script or, past its end, a free value. -/
def State.turn (s : State) : Turn := s.sched.headD (Config.schedule s.draws)

/-- The state once that choice is used up. -/
def State.dropTurn (s : State) : State :=
  match s.sched with
  | [] => { s with draws := s.draws + 1 }
  | _ :: ts => { s with sched := ts }

end Sys2Proof.Machine
end

