-- ==== Sys2Proof/Machine/Ops.lean ====
section
/-! DEFINITION. The operations the meanings share: the rotation (R10), the update of a line's registers (R91), the two
error entries (R101, R102; there is no return from either, R108), acceptance of a command (R60), SEED (R88), a round
(R89, R90), COMBINE (R93) and the reset transition (R116). -/

namespace Sys2Proof.Machine

/-- R10, D4: left rotation of a word; the amount counts modulo 32. -/
def rotl (x : Word) (n : Nat) : Word := x.rotateLeft n

/-- R91: the register update both lines share. -/
def roundStep (t : LineRegs) (f : Word → Word → Word → Word) (w k : Word) (s : Nat) : LineRegs where
  A := t.E
  B := rotl (t.A + f t.B t.C t.D + w + k) s + t.E
  C := t.B
  D := rotl t.C extraRotate
  E := t.D

/-- R101: taking InvalidBlockSize. The flag is set and the wrong-sized block discarded; nothing is saved and control
goes nowhere (R107). -/
def raiseInvalidBlockSize (s : State) : State := { s with EBS := true, wcnt := 0 }

/-- R102: taking InvalidRoundIndex. The flag is set and the engine halts; nothing else changes (R107). -/
def raiseInvalidRoundIndex (s : State) : State := { s with ERI := true, phase := .halt }

/-- R60: a command has its effect if and only if it is presented in IDLE; otherwise it changes nothing. -/
def accept (s : State) (effect : State → State) : Outcome :=
  match s.phase with
  | .idle => .next (effect s)
  | .run => .next s
  | .halt => .next s

/-- R88: the registers of a line that starts from the state words. -/
def seedRegs (h : StateWords) : LineRegs := ⟨h.h0, h.h1, h.h2, h.h3, h.h4⟩

/-- R88: SEED, start both lines from the current state. -/
def seed (s : State) : State :=
  { s with L := seedRegs s.h, R := seedRegs s.h, jL := 0, jR := 0, phase := .run }

/-- R95: a round counter has left its range: the enabling condition of FAULT beside `phase = RUN`. -/
def State.overrun (s : State) : Prop := 80 < s.jL.toNat ∨ 80 < s.jR.toNat

/-- R58: the enabling condition of a round of a line. -/
def State.roundEnabled (s : State) (l : Line) : Prop :=
  s.phase = .run ∧ ¬ s.overrun ∧ (s.ctr l).toNat < 80

/-- R89, R90: one round of the line it is granted to, with a combinator `f`, a message index `r` and a rotation amount
`sh`: the constant is that of the line and its counter. With a counter out of range FAULT is the only enabled
micro-operation (R95) and is what happens; where the round is not enabled (R58) nothing happens (log 9). -/
def runRound (f : Word → Word → Word → Word) (r sh : BitVec 4) (s : State) : Outcome :=
  match s.phase with
  | .idle => .next s
  | .halt => .next s
  | .run =>
    if 80 < s.jL.toNat ∨ 80 < s.jR.toNat then .next (raiseInvalidRoundIndex s)
    else if hj : (s.ctr s.grant).toNat < 80 then
      .next (s.setLine s.grant
        (roundStep (s.regs s.grant) f (memRead s r) (roundConstant s.grant ⟨(s.ctr s.grant).toNat, hj⟩) sh.toNat)
        (s.ctr s.grant + 1))
    else .next s

/-- R93: the new state words, from the previous ones and the registers of both lines. -/
def recombine (h : StateWords) (l r : LineRegs) : StateWords where
  h0 := h.h1 + l.C + r.D
  h1 := h.h2 + l.D + r.E
  h2 := h.h3 + l.E + r.A
  h3 := h.h4 + l.A + r.B
  h4 := h.h0 + l.B + r.C

/-- R93: COMBINE, in one transition (R94). -/
def combine (s : State) : State :=
  { s with h := recombine s.h s.L s.R, wcnt := 0, phase := .idle }

/-- Five free words from the `n`-th on. -/
def freeRegs (n : Nat) : LineRegs :=
  ⟨Config.freeWord n, Config.freeWord (n + 1), Config.freeWord (n + 2), Config.freeWord (n + 3), Config.freeWord (n + 4)⟩

/-- Sixteen free words from the `n`-th on. -/
def freeBlock (n : Nat) : Vector Word 16 :=
  #v[Config.freeWord n, Config.freeWord (n + 1), Config.freeWord (n + 2), Config.freeWord (n + 3),
    Config.freeWord (n + 4), Config.freeWord (n + 5), Config.freeWord (n + 6), Config.freeWord (n + 7),
    Config.freeWord (n + 8), Config.freeWord (n + 9), Config.freeWord (n + 10), Config.freeWord (n + 11),
    Config.freeWord (n + 12), Config.freeWord (n + 13), Config.freeWord (n + 14), Config.freeWord (n + 15)]

/-- R116, R30: the reset transition. The block buffer and the working registers become unspecified: 26 free values. -/
def resetTransition (s : State) : State :=
  { s with
    h := initialConstants
    phase := .idle
    jL := 0
    jR := 0
    wcnt := 0
    EBS := false
    ERI := false
    X := freeBlock s.draws
    L := freeRegs (s.draws + 16)
    R := freeRegs (s.draws + 21)
    draws := s.draws + 26 }

end Sys2Proof.Machine
end

