-- ==== Sys2Proof/Machine/Commands.lean ====
section
/-! DEFINITION. The meanings of the four host commands (40_commands.md): what the command does when it stands on the
CMD port at a clock edge with RST = 0. -/

namespace Sys2Proof.Machine

/-- R64: NOP changes nothing, whether accepted or not. -/
def execNop (_data : Word) (s : State) : Outcome := .next s

/-- R61: the effect of INIT. -/
def initEffect (s : State) : State := { s with h := initialConstants, wcnt := 0, EBS := false }

/-- R61: INIT creates a new CompressionState. -/
def execInit (_data : Word) (s : State) : Outcome := accept s initEffect

/-- R62: the effect of PUSH: the word goes to `X[wcnt]`, or is discarded and the counter saturates at 17. -/
def pushEffect (d : Word) (s : State) : State :=
  if hw : s.wcnt.toNat ≤ 15 then { memWrite s ⟨s.wcnt.toNat, by omega⟩ d with wcnt := s.wcnt + 1 }
  else { s with wcnt := 17 }

/-- R62: PUSH supplies the next word of the block. -/
def execPush (d : Word) (s : State) : Outcome := accept s (pushEffect d)

/-- R63: the effect of COMPRESS: SEED with a full block, InvalidBlockSize with any other length. -/
def compressEffect (s : State) : State := if s.wcnt = 16 then seed s else raiseInvalidBlockSize s

/-- R63: COMPRESS starts the compression of the buffered block. -/
def execCompress (_data : Word) (s : State) : Outcome := accept s compressEffect

end Sys2Proof.Machine
end

