-- ==== Sys2Proof/Machine/Rounds.lean ====
section
/-! DEFINITION. The meanings of the five control words (R53): one round with the named combinator, on the line the
sequencer grants it to (R58, R89, R90). -/

namespace Sys2Proof.Machine

/-- R68. -/
def execRndF0 (r sh : BitVec 4) (s : State) : Outcome := runRound F0 r sh s

/-- R69. -/
def execRndF1 (r sh : BitVec 4) (s : State) : Outcome := runRound F1 r sh s

/-- R70. -/
def execRndF2 (r sh : BitVec 4) (s : State) : Outcome := runRound F2 r sh s

/-- R71. -/
def execRndF3 (r sh : BitVec 4) (s : State) : Outcome := runRound F3 r sh s

/-- R72. -/
def execRndF4 (r sh : BitVec 4) (s : State) : Outcome := runRound F4 r sh s

end Sys2Proof.Machine
end

