-- ==== Sys2Proof/Machine/Dispatch.lean ====
section
/-! DEFINITION. One arm per instruction. -/

namespace Sys2Proof.Machine

def exec (i : Instr) (s : State) : Host.Outcome State Fault Refusal :=
  match i with
  | .nop d => Sys2Proof.Machine.execNop d s
  | .init d => Sys2Proof.Machine.execInit d s
  | .push d => Sys2Proof.Machine.execPush d s
  | .compress d => Sys2Proof.Machine.execCompress d s
  | .rndF0 r sh => Sys2Proof.Machine.execRndF0 r sh s
  | .rndF1 r sh => Sys2Proof.Machine.execRndF1 r sh s
  | .rndF2 r sh => Sys2Proof.Machine.execRndF2 r sh s
  | .rndF3 r sh => Sys2Proof.Machine.execRndF3 r sh s
  | .rndF4 r sh => Sys2Proof.Machine.execRndF4 r sh s

end Sys2Proof.Machine
end

