-- ==== Sys2Proof/Machine/Sequencer.lean ====
section
/-! DEFINITION. The sequencer: which micro-operation is enabled (R58), the control word a round reads (R36, R89, R90),
the order of the two lines (R98), and one transition of the machine (R60, R96, R106, R116). -/

namespace Sys2Proof.Machine

/-- R89, R90: RND.L or RND.R where it is enabled: the control word of the line and its counter is read from the
schedule ROM, decoded and executed; a reserved selector raises InvalidRoundIndex in place of the round (R53). -/
def issueRound (l : Line) (s : State) : Outcome :=
  match s.phase with
  | .idle => .next s
  | .halt => .next s
  | .run =>
    if 80 < s.jL.toNat ∨ 80 < s.jR.toNat then .next (raiseInvalidRoundIndex s)
    else if hj : (s.ctr l).toNat < 80 then
      match decodeCw (romRead s.rom l ⟨(s.ctr l).toNat, hj⟩) with
      | .ok i => exec i { s with grant := l }
      | .error _ => .next (raiseInvalidRoundIndex s)
    else .next s

/-- R98: the rounds of one choice of SCHEDULE; "both" is one and then the other. -/
def issueTurn (t : Turn) (s : State) : Outcome :=
  match t with
  | .one l => issueRound l s
  | .both l =>
    match issueRound l s with
    | .next s' => issueRound (otherLine l) s'
    | .fault f => .fault f
    | .refused f => .refused f

/-- R58: in RUN, the micro-operation that is enabled: FAULT, COMBINE, the round of the only line below 80, or what
SCHEDULE chooses where both are below 80. -/
def microStep (s : State) : Outcome :=
  if 80 < s.jL.toNat ∨ 80 < s.jR.toNat then .next (raiseInvalidRoundIndex s)
  else if s.jL = 80 ∧ s.jR = 80 then .next (combine s)
  else if s.jR = 80 then issueRound .left s
  else if s.jL = 80 then issueRound .right s
  else issueTurn s.turn s.dropTurn

/-- One transition. With RST = 1 it is the reset transition and nothing else (R116); in IDLE the command on the port is
accepted (R60); in RUN the command is not accepted and a micro-operation is taken (R58); in HALT nothing happens (R19). -/
def transition (s : State) : Outcome :=
  if s.nextPins.rst then .next (resetTransition s.dropPins)
  else
    match s.phase with
    | .idle => exec (decodeCmd s.nextPins.cmd) s.dropPins
    | .run => microStep s.dropPins
    | .halt => .next s.dropPins

/-- A state in which a word is what the next transition executes. A command word stands on the CMD port at the coming
edge, in IDLE. A control word is the schedule ROM's entry of the left line's round 0, in RUN with neither line begun,
where SCHEDULE chooses the left line; the port is idle at that edge. -/
def placeWord (s : State) : CodeWord → State
  | .cmd w => { s with phase := .idle, pins := ⟨false, w⟩ :: s.pins }
  | .cw w =>
    { s with
      phase := .run
      jL := 0
      jR := 0
      rom := { s.rom with left := s.rom.left.set 0 w }
      sched := .one .left :: s.sched
      pins := idlePins :: s.pins }

/-- `placeWord` for a word of the opcode table; a number with a bit above its format's width is no word, and the state
is left alone. -/
def placeTableWord (s : State) (nbits w : Nat) : State :=
  match tableWord nbits w with
  | some c => placeWord s c
  | none => s

end Sys2Proof.Machine
end

