-- ==== Sys2Proof/Machine/Step.lean ====
section
/-! DEFINITION. The step of the machine, and how a word is placed for it. -/

namespace Sys2Proof.Machine

/-- One transition of the engine (R96, R116). -/
def step (s : State) : Host.Outcome State Fault Refusal := transition s

/-- The state whose next step runs the word `w` of a table row of `nbits` bits. -/
def State.withFetchWord (s : State) (nbits w : Nat) : State := placeTableWord s nbits w

end Sys2Proof.Machine
end

