-- ==== Sys2Proof/Machine/Compress.lean ====
section
/-! DEFINITION. The whole function `compress(H, X)` of R97, for any TABLES, and the registers of a line after its first
rounds, written from the tables and not from the schedule ROM's words: what the micro-operations are held against. -/

namespace Sys2Proof.Machine

/-- R53, R97: the combinator `F[n]` for a combinator number in 0..4. -/
def combinator (n : Fin 5) : Word → Word → Word → Word :=
  match n with
  | 0 => F0
  | 1 => F1
  | 2 => F2
  | 3 => F3
  | 4 => F4

/-- R97: the number of the combinator of a line at round `j`: `band(j)` on the left, `4 - band(j)` on the right. -/
def lineCombinator (l : Line) (j : Fin 80) : Fin 5 :=
  match l with
  | .left => band j
  | .right => ⟨4 - (band j).val, by omega⟩

/-- R97: round `j` of a line over the block `X`. -/
def lineRound (t : Tables) (l : Line) (X : Vector Word 16) (j : Fin 80) (regs : LineRegs) : LineRegs :=
  roundStep regs (combinator (lineCombinator l j)) (X[(messageIndex t l j).toNat]'(messageIndex t l j).isLt)
    (roundConstant l j) (rotationAmount t l j).toNat

/-- R97: the registers of a line after its first `n` rounds (all 80 where `n` is more). -/
def lineAfter (t : Tables) (l : Line) (X : Vector Word 16) (h : StateWords) : Nat → LineRegs
  | 0 => seedRegs h
  | n + 1 => if hn : n < 80 then lineRound t l X ⟨n, hn⟩ (lineAfter t l X h n) else lineAfter t l X h n

/-- R97: `compress(H, X)`. -/
def compress (t : Tables) (h : StateWords) (X : Vector Word 16) : StateWords :=
  recombine h (lineAfter t .left X h 80) (lineAfter t .right X h 80)

end Sys2Proof.Machine
end

