-- ==== Sys2Proof/Machine/Flags.lean ====
section
/-! DEFINITION. What the output ports show, as views of the state: READY (R26), STATUS (R25, R56), the error code
(R103), DIGEST (R27, R57), and the observation of a state (R28). There are no arithmetic flags (R23). -/

namespace Sys2Proof.Machine

/-- R19: the 2-bit value of the phase register. -/
def Phase.code : Phase → BitVec 2
  | .idle => 0
  | .run => 1
  | .halt => 2

/-- R26: READY. -/
def State.ready (s : State) : Bool := s.phase == .idle

/-- R25: BUSY. -/
def State.busy (s : State) : Bool := s.phase == .run

/-- R25, R56: STATUS, ERI in bit 7, EBS in bit 6, BUSY in bit 5, `wcnt` in bits 4:0. -/
def State.status (s : State) : BitVec 8 :=
  ((BitVec.ofBool s.ERI ++ BitVec.ofBool s.EBS) ++ BitVec.ofBool s.busy) ++ s.wcnt

/-- R103: the error code, `STATUS[7:6]`. -/
def State.errorCode (s : State) : BitVec 2 := s.status.extractLsb' 6 2

/-- R27, R57: DIGEST, the five state words with `h[0]` in the least significant position. -/
def State.digest (s : State) : BitVec 160 :=
  (((s.h.h4 ++ s.h.h3) ++ s.h.h2) ++ s.h.h1) ++ s.h.h0

/-- R28: all that a host can observe of a state. -/
def State.observe (s : State) : Bool × BitVec 8 × BitVec 160 := (s.ready, s.status, s.digest)

end Sys2Proof.Machine
end

