-- ==== Sys2Proof/Safety.lean ====
section
/-! DEFINITION. What counts as a safe state (D30), the invariant of the reachable states (R29), and when two states
cannot be told apart by a host (R28). -/

namespace Sys2Proof.Machine

/-- D30, R24: no InvalidRoundIndex has been raised; a state with ERI = 1 is a fault state. -/
def State.safe (s : State) : Prop := s.ERI = false ∧ s.phase ≠ .halt

/-- R29: in RUN, the block is full, both counters are in 0..80, and the registers of each line are the result of as
many rounds as its counter says, from the value the state words had, and still have, at SEED. -/
def State.midway (t : Tables) (s : State) : Prop :=
  s.wcnt = 16 ∧ s.jL.toNat ≤ 80 ∧ s.jR.toNat ≤ 80 ∧
    s.L = lineAfter t .left s.X s.h s.jL.toNat ∧ s.R = lineAfter t .right s.X s.h s.jR.toNat

/-- R29 and R37: the invariant of the reachable states, for a machine whose schedule ROM holds the TABLES `t`. -/
def State.Inv (t : Tables) (s : State) : Prop :=
  s.rom = packRom t ∧ s.safe ∧ s.wcnt.toNat ≤ 17 ∧ (s.phase = .run → s.midway t)

/-- R28: the two states agree on everything but what is hidden and not yet overwritten: the working registers and the
counters outside RUN (R18, R20) and the block words at and above `wcnt` outside RUN (U9). The host's inputs and the
choices of SCHEDULE are the same; the line a round was last granted to does not matter. -/
def State.agree (s t : State) : Prop :=
  s.h = t.h ∧ s.wcnt = t.wcnt ∧ s.phase = t.phase ∧ s.EBS = t.EBS ∧ s.ERI = t.ERI ∧ s.rom = t.rom ∧
    s.pins = t.pins ∧ s.sched = t.sched ∧ s.draws = t.draws ∧
    (∀ i : Fin 16, i.val < s.wcnt.toNat → s.X[i] = t.X[i]) ∧
    (s.phase = .run → s.L = t.L ∧ s.R = t.R ∧ s.jL = t.jL ∧ s.jR = t.jR ∧ s.X = t.X)

/-- `n` transitions in a row, as long as none stops (D30: a run). -/
def steps : Nat → State → Outcome
  | 0, s => .next s
  | n + 1, s =>
    match step s with
    | .next s' => steps n s'
    | .fault f => .fault f
    | .refused f => .refused f

/-- R119, R120: at none of the listed clock edges is RST asserted. -/
def State.noReset (s : State) : Prop := ∀ p ∈ s.pins, p.rst = false

end Sys2Proof.Machine
end

