-- ==== Sys2Proof/WellFormed.lean ====
section
/-! DEFINITION. Well-formedness. An instruction's fields have exactly the widths of its encoding (R47, R52) and every
value of every field is legal (R49, R50, R54), so there is nothing to check of an instruction beyond its type. What can
be ill-formed is the content of the tables and of the schedule ROM. -/

namespace Sys2Proof

/-- R49, R50, R54: every field value of every instruction is legal; one arm per constructor, so that a new instruction
must say what makes it well formed. -/
def Instr.wf : Instr → Bool
  | .nop _ => true
  | .init _ => true
  | .push _ => true
  | .compress _ => true
  | .rndF0 _ _ => true
  | .rndF1 _ _ => true
  | .rndF2 _ _ => true
  | .rndF3 _ _ => true
  | .rndF4 _ _ => true

/-- R85 fact 2: the 16 entries of band `b` of a line's message indices. -/
def bandEntries (v : Vector (BitVec 4) 80) (b : Nat) : List (BitVec 4) := (v.toList.drop (16 * b)).take 16

/-- R85 fact 2: each of the five bands of a line's message indices names every block word exactly once. -/
def bandsArePermutations (v : Vector (BitVec 4) 80) : Bool :=
  (List.range 5).all fun b => decide (bandEntries v b).Nodup

/-- R85 fact 2, R78: band 0 of the left line's message indices is the identity. -/
def startsWithIdentity (v : Vector (BitVec 4) 80) : Bool :=
  bandEntries v 0 == (List.range 16).map (BitVec.ofNat 4)

/-- R85 fact 2: the ten bands of both lines are pairwise different (so no other band is the identity). -/
def bandsAreDistinct (left right : Vector (BitVec 4) 80) : Bool :=
  decide ((List.range 5).map (bandEntries left) ++ (List.range 5).map (bandEntries right)).Nodup

/-- R85 fact 3: every rotation amount lies in 5..15 (the type gives the upper bound) and none is 10. -/
def amountsInRange (v : Vector (BitVec 4) 80) : Bool :=
  v.toList.all fun s => 5 ≤ s.toNat && s.toNat != 10

/-- R86, D28: the stated assumptions of the parameter TABLES, which are facts 1 to 3 of R85 (fact 1, an index in 0..15,
is the type of an index; fact 4 is about RoundConstant, which is no part of TABLES). -/
def Tables.wf (t : Tables) : Bool :=
  bandsArePermutations t.msgLeft && bandsArePermutations t.msgRight && startsWithIdentity t.msgLeft &&
    bandsAreDistinct t.msgLeft t.msgRight && amountsInRange t.rotLeft && amountsInRange t.rotRight

/-- R53: no entry of the schedule ROM holds a reserved selector. -/
def Machine.Rom.wf (m : Machine.Rom) : Bool :=
  m.left.toList.all (fun w => (cwFsel w).toNat ≤ 4) && m.right.toList.all fun w => (cwFsel w).toNat ≤ 4

end Sys2Proof
end

