-- ==== Sys2Proof/Certificates/Slice0/Obligations.lean ====
section
/-! DEFINITION. The statements for the provers. -/

open Sys2Proof Sys2Proof.Machine

/-! Encodings (30_encoding.md). -/

/-- 30_encoding.md sections 2 and 3: decoding the word of a well-formed instruction gives the instruction back; the
word a legal word's instruction encodes to is that word; and the words that are rejected are exactly the control words
with a reserved selector. -/
def Obligations.EncodingIsBijective : Prop :=
  (∀ i : Instr, i.wf = true → decode (encode i) = .ok i) ∧
  (∀ (w : CodeWord) (i : Instr), decode w = .ok i → encode i = w) ∧
  (∀ w : CodeWord, (∃ e, decode w = .error e) ↔ ∃ c, w = .cw c ∧ 5 ≤ (cwFsel c).toNat)

/-- R47, R48: a command word is `op * 2^32 + data`, and `op` selects the command. -/
def Obligations.CommandMap : Prop :=
  ∀ d : Word,
    decodeCmd (BitVec.ofNat 34 (0 * 2 ^ 32 + d.toNat)) = .nop d ∧
    decodeCmd (BitVec.ofNat 34 (1 * 2 ^ 32 + d.toNat)) = .init d ∧
    decodeCmd (BitVec.ofNat 34 (2 * 2 ^ 32 + d.toNat)) = .push d ∧
    decodeCmd (BitVec.ofNat 34 (3 * 2 ^ 32 + d.toNat)) = .compress d

/-- R50, R49: every command word is a legal command, and the commands with spare bits behave as with `data` = 0. -/
def Obligations.EveryCommandWordIsLegal : Prop :=
  (∀ w : BitVec 34, ∃ i, decode (.cmd w) = .ok i) ∧
  (∀ (d : Word) (s : State),
    exec (.nop d) s = exec (.nop 0) s ∧ exec (.init d) s = exec (.init 0) s ∧
      exec (.compress d) s = exec (.compress 0) s) ∧
  (∀ (w : BitVec 34) (s : State), ∃ s', exec (decodeCmd w) s = .next s')

/-- 30_encoding.md section 3 (R52, R53): a control word is `fsel * 256 + r * 16 + s`; `fsel` 0 to 4 select the five
rounds and 5 to 7 are reserved. -/
def Obligations.ControlWordMap : Prop :=
  ∀ r s : BitVec 4,
    decodeCw (BitVec.ofNat 11 (0 * 256 + r.toNat * 16 + s.toNat)) = .ok (.rndF0 r s) ∧
    decodeCw (BitVec.ofNat 11 (1 * 256 + r.toNat * 16 + s.toNat)) = .ok (.rndF1 r s) ∧
    decodeCw (BitVec.ofNat 11 (2 * 256 + r.toNat * 16 + s.toNat)) = .ok (.rndF2 r s) ∧
    decodeCw (BitVec.ofNat 11 (3 * 256 + r.toNat * 16 + s.toNat)) = .ok (.rndF3 r s) ∧
    decodeCw (BitVec.ofNat 11 (4 * 256 + r.toNat * 16 + s.toNat)) = .ok (.rndF4 r s) ∧
    decodeCw (BitVec.ofNat 11 (5 * 256 + r.toNat * 16 + s.toNat)) = .error (.reservedFsel 5) ∧
    decodeCw (BitVec.ofNat 11 (6 * 256 + r.toNat * 16 + s.toNat)) = .error (.reservedFsel 6) ∧
    decodeCw (BitVec.ofNat 11 (7 * 256 + r.toNat * 16 + s.toNat)) = .error (.reservedFsel 7)

/-- Words that the spec writes out, one of every row of the opcode table (R59; R84; V12, V15 to V18). -/
def Obligations.WrittenWordsDecode : Prop :=
  decodeCmd 0x0FFFFFFFF = .nop 0xFFFFFFFF ∧ decodeCmd 0x1DEADBEEF = .init 0xDEADBEEF ∧
  decodeCmd 0x200000080 = .push 0x00000080 ∧ decodeCmd 0x300000000 = .compress 0 ∧
  decodeCw 0x00B = .ok (.rndF0 0 11) ∧ decodeCw 0x11D = .ok (.rndF1 1 13) ∧ decodeCw 0x2C5 = .ok (.rndF2 12 5) ∧
  decodeCw 0x369 = .ok (.rndF3 6 9) ∧ decodeCw 0x458 = .ok (.rndF4 5 8)

/-! Words, combinators and tables (00_scope.md, 41, 42). -/

/-- 00_scope.md (R10, which takes the definition from general knowledge; log 11, PRESUMED): left rotation by its formula
and by where each bit goes. What it gives for the amount 0 and for amounts of 32 or more is the model's choice among
what D4 permits (log 11, DEDUCED). -/
def Obligations.RotationRule : Prop :=
  (∀ (x : Word) (n : Nat), 1 ≤ n → n ≤ 31 →
    (rotl x n).toNat = (x.toNat * 2 ^ n) % 2 ^ 32 + x.toNat / 2 ^ (32 - n) ∧
      ∀ i, i < 32 → (rotl x n).getLsbD ((i + n) % 32) = x.getLsbD i) ∧
  (∀ x : Word, rotl x 0 = x) ∧ ∀ (x : Word) (n : Nat), rotl x n = rotl x (n % 32)

/-- 41_round_function_selector.md section 2 (R68 to R72): the formula, the reading bit by bit, the corner cases, the
encoding and the rounds of each of the five combinators. The clauses F3(x,y,z) = F1(z,x,y), F4(x,y,z) = F2(y,z,x) and
that XOR or a sum may stand for the OR of F1 are sentences that the spec itself marks as derived. -/
def Obligations.CombinatorRules : Prop :=
  (∀ x y z : Word,
    F0 x y z = x ^^^ y ^^^ z ∧ F1 x y z = (x &&& y) ||| (~~~x &&& z) ∧ F2 x y z = (x ||| ~~~y) ^^^ z ∧
    F3 x y z = (x &&& z) ||| (y &&& ~~~z) ∧ F4 x y z = x ^^^ (y ||| ~~~z) ∧
    F3 x y z = F1 z x y ∧ F4 x y z = F2 y z x ∧
    F0 x x z = z ∧ F1 0 y z = z ∧ F1 0xFFFFFFFF y z = y ∧ F1 x y y = y ∧
    F1 x y z = (x &&& y) ^^^ (~~~x &&& z) ∧ F1 x y z = (x &&& y) + (~~~x &&& z) ∧
    F2 x 0 z = ~~~z ∧ F2 0 0xFFFFFFFF z = z ∧
    F3 x y 0 = y ∧ F3 x y 0xFFFFFFFF = x ∧ F3 x x z = x ∧ F4 x y 0 = ~~~x ∧ F4 x 0 0xFFFFFFFF = x ∧
    F0 x y z = F0 y x z ∧ F0 x y z = F0 x z y) ∧
  (∀ (x y z : Word) (i : Nat), i < 32 →
    (F0 x y z).getLsbD i = ((x.getLsbD i ^^ y.getLsbD i) ^^ z.getLsbD i) ∧
    (F1 x y z).getLsbD i = (if x.getLsbD i then y.getLsbD i else z.getLsbD i) ∧
    (F2 x y z).getLsbD i = (if x.getLsbD i || !y.getLsbD i then !z.getLsbD i else z.getLsbD i) ∧
    (F3 x y z).getLsbD i = (if z.getLsbD i then x.getLsbD i else y.getLsbD i) ∧
    (F4 x y z).getLsbD i = (if y.getLsbD i || !z.getLsbD i then !x.getLsbD i else x.getLsbD i)) ∧
  (F0 0 0 0 = 0 ∧ F0 0xFFFFFFFF 0xFFFFFFFF 0xFFFFFFFF = 0xFFFFFFFF ∧ F2 0 0 0 = 0xFFFFFFFF ∧
    F4 0 0 0 = 0xFFFFFFFF ∧
    F0 0xEFCDAB89 0x98BADCFE 0x10325476 = 0x67452301 ∧ F1 0xEFCDAB89 0x98BADCFE 0x10325476 = 0x98BADCFE ∧
    F2 0xEFCDAB89 0x98BADCFE 0x10325476 = 0xFFFFFFFF ∧ F3 0xEFCDAB89 0x98BADCFE 0x10325476 = 0x88888888 ∧
    F4 0xEFCDAB89 0x98BADCFE 0x10325476 = 0x10325476 ∧
    F1 0x0F0F0F0F 0x33333333 0x55555555 = 0x53535353 ∧ F2 0x0F0F0F0F 0x33333333 0x55555555 = 0x9A9A9A9A ∧
    F3 0x0F0F0F0F 0x33333333 0x55555555 = 0x27272727 ∧ F4 0x0F0F0F0F 0x33333333 0x55555555 = 0xB4B4B4B4) ∧
  (∀ r s : BitVec 4,
    decodeCw ((0#3 ++ r) ++ s) = .ok (.rndF0 r s) ∧ decodeCw ((1#3 ++ r) ++ s) = .ok (.rndF1 r s) ∧
    decodeCw ((2#3 ++ r) ++ s) = .ok (.rndF2 r s) ∧ decodeCw ((3#3 ++ r) ++ s) = .ok (.rndF3 r s) ∧
    decodeCw ((4#3 ++ r) ++ s) = .ok (.rndF4 r s)) ∧
  (∀ j : Fin 80,
    (roundFsel .left j = 0 ↔ j.val ≤ 15) ∧ (roundFsel .right j = 0 ↔ 64 ≤ j.val) ∧
    (roundFsel .left j = 1 ↔ 16 ≤ j.val ∧ j.val ≤ 31) ∧ (roundFsel .right j = 1 ↔ 48 ≤ j.val ∧ j.val ≤ 63) ∧
    (roundFsel .left j = 2 ↔ 32 ≤ j.val ∧ j.val ≤ 47) ∧ (roundFsel .right j = 2 ↔ 32 ≤ j.val ∧ j.val ≤ 47) ∧
    (roundFsel .left j = 3 ↔ 48 ≤ j.val ∧ j.val ≤ 63) ∧ (roundFsel .right j = 3 ↔ 16 ≤ j.val ∧ j.val ≤ 31) ∧
    (roundFsel .left j = 4 ↔ 64 ≤ j.val) ∧ (roundFsel .right j = 4 ↔ j.val ≤ 15))

/-- 41_round_function_selector.md section 5 (R76, which the spec derives): each combinator is bitwise by its column of
the truth table, read from the row 111 down to the row 000, and the five are pairwise different. -/
def Obligations.CombinatorTruthTables : Prop :=
  (∀ (x y z : Word) (i : Nat), i < 32 →
    let row := 4 * (x.getLsbD i).toNat + 2 * (y.getLsbD i).toNat + (z.getLsbD i).toNat
    (F0 x y z).getLsbD i = (0b10010110#8).getLsbD row ∧ (F1 x y z).getLsbD i = (0b11001010#8).getLsbD row ∧
    (F2 x y z).getLsbD i = (0b01011001#8).getLsbD row ∧ (F3 x y z).getLsbD i = (0b11100100#8).getLsbD row ∧
    (F4 x y z).getLsbD i = (0b00101101#8).getLsbD row) ∧
  ∀ a b : Fin 5, combinator a = combinator b → a = b

/-- 41_round_function_selector.md sections 1 and 3 (R67, R73, R74): bands, the combinator of a round, the mirroring of
the right line, in the ROM image too, and that only the combinator is mirrored. That the band of 79 - j is 4 less the
band of j is an inference the spec marks as derived. -/
def Obligations.BandsAndMirroring : Prop :=
  (∀ j : Fin 80,
    cwFsel (romRead romImage .left j) = BitVec.ofNat 3 (band j).val ∧
    cwFsel (romRead romImage .right j) = BitVec.ofNat 3 (4 - (band j).val)) ∧
  (∀ (t : Tables) (j : Fin 80),
    cwR (controlWord t .right j) = t.msgRight[j] ∧ cwS (controlWord t .right j) = t.rotRight[j] ∧
    roundConstant .right j = krom .right (band j)) ∧
  ∀ j : Fin 80,
    (band j).val = j.val / 16 ∧ BitVec.ofNat 3 (band j).val = (BitVec.ofNat 7 j.val).extractLsb' 4 3 ∧
    roundFunction j = BitVec.ofNat 3 (j.val / 16) ∧
    roundFsel .left j = roundFunction j ∧ roundFsel .right j = roundFunction ⟨79 - j.val, by omega⟩ ∧
    (band ⟨79 - j.val, by omega⟩).val = 4 - (band j).val ∧ roundFsel .right j = BitVec.ofNat 3 (4 - (band j).val)

/-- R81: the ten additive constants, each for the band of the round on its own line. -/
def Obligations.RoundConstants : Prop :=
  (∀ (l : Line) (j : Fin 80), roundConstant l j = krom l (band j)) ∧
  (krom .left 0 = 0x00000000 ∧ krom .left 1 = 0x5A827999 ∧ krom .left 2 = 0x6ED9EBA1 ∧ krom .left 3 = 0x8F1BBCDC ∧
    krom .left 4 = 0xA953FD4E) ∧
  (krom .right 0 = 0x50A28BE6 ∧ krom .right 1 = 0x5C4DD124 ∧ krom .right 2 = 0x6D703EF3 ∧
    krom .right 3 = 0x7A6D76E9 ∧ krom .right 4 = 0x00000000)

/-- 42_round_tables.md section 7 (R84, which the spec derives): the image of the schedule ROM is the supplied tables
packed with the combinator numbers. -/
def Obligations.RomImageIsPackedTables : Prop := packRom suppliedTables = romImage ∧ romImage.wf = true

/-- 42_round_tables.md section 8 (R85, which the spec derives): the supplied tables meet the stated assumptions of
TABLES; each band is a permutation, the amounts lie in 5..15 and are never 10, left band 0 is the identity and the only
one, the ten band permutations are pairwise different; and of the ten constants only 0 occurs twice. -/
def Obligations.TableFacts : Prop :=
  suppliedTables.wf = true ∧
  (∀ (l : Line) (j : Fin 80), rotationAmount suppliedTables l j ≠ 10) ∧
  (∀ j : Fin 16, messageIndex suppliedTables .left ⟨j.val, by omega⟩ = BitVec.ofNat 4 j.val) ∧
  (∀ a b : Line × Fin 5,
    (∀ j : Fin 16, messageIndex suppliedTables a.1 ⟨16 * a.2.val + j.val, by omega⟩ =
      messageIndex suppliedTables b.1 ⟨16 * b.2.val + j.val, by omega⟩) → a = b) ∧
  (∀ a b : Line × Fin 5, krom a.1 a.2 = krom b.1 b.2 → a = b ∨ krom a.1 a.2 = 0) ∧
  krom .left 0 = krom .right 4

/-- 42_round_tables.md sections 8 and 9 (R85, R86) and 20_memory.md section 1 (R33), where the spec derives it: what the
stated assumptions of TABLES say of any TABLES that meets them: in each band of each line every block word is read in
exactly one round; left band 0 reads the words in order; no other band does, and no two bands read them in one order;
and no amount is below 5 or equal to 10. -/
def Obligations.TablesAssumptions : Prop :=
  ∀ t : Tables, t.wf = true →
    (∀ (l : Line) (b : Fin 5) (i : BitVec 4),
      ∃ j : Fin 16, messageIndex t l ⟨16 * b.val + j.val, by omega⟩ = i ∧
        ∀ k : Fin 16, messageIndex t l ⟨16 * b.val + k.val, by omega⟩ = i → k = j) ∧
    (∀ j : Fin 16, messageIndex t .left ⟨j.val, by omega⟩ = BitVec.ofNat 4 j.val) ∧
    (∀ a : Line × Fin 5,
      (∀ j : Fin 16, messageIndex t a.1 ⟨16 * a.2.val + j.val, by omega⟩ = BitVec.ofNat 4 j.val) → a = (.left, 0)) ∧
    (∀ a b : Line × Fin 5,
      (∀ j : Fin 16, messageIndex t a.1 ⟨16 * a.2.val + j.val, by omega⟩ =
        messageIndex t b.1 ⟨16 * b.2.val + j.val, by omega⟩) → a = b) ∧
    (∀ (l : Line) (j : Fin 80), 5 ≤ (rotationAmount t l j).toNat ∧ (rotationAmount t l j).toNat ≠ 10)

/-! Rounds (43_compression_step.md). -/

/-- R91: the register update both lines share. -/
def Obligations.RoundStepRule : Prop :=
  ∀ (A B C D E : Word) (f : Word → Word → Word → Word) (w k : Word) (s : Nat),
    roundStep ⟨A, B, C, D, E⟩ f w k s = ⟨E, rotl (A + f B C D + w + k) s + E, B, rotl C 10, D⟩

/-- 43_compression_step.md section 3 (R89 to R91) with 41 (R68 to R72): where a round of the granted line is enabled,
each of the five control words answers the next state in which that line's five registers and counter are updated and
nothing else. -/
def Obligations.ControlWordsExecute : Prop :=
  ∀ (s : State) (r sh : BitVec 4), s.phase = .run → s.jL.toNat ≤ 80 → s.jR.toNat ≤ 80 →
    (∀ hj : s.jL.toNat < 80, s.grant = .left →
      let done := fun f : Word => Host.Outcome.next (φ := Fault) (ρ := Refusal)
        { s with
          L := ⟨s.L.E, rotl (s.L.A + f + s.X[r.toNat]'r.isLt + roundConstant .left ⟨s.jL.toNat, hj⟩) sh.toNat + s.L.E,
            s.L.B, rotl s.L.C 10, s.L.D⟩
          jL := s.jL + 1 }
      exec (.rndF0 r sh) s = done (s.L.B ^^^ s.L.C ^^^ s.L.D) ∧
      exec (.rndF1 r sh) s = done ((s.L.B &&& s.L.C) ||| (~~~s.L.B &&& s.L.D)) ∧
      exec (.rndF2 r sh) s = done ((s.L.B ||| ~~~s.L.C) ^^^ s.L.D) ∧
      exec (.rndF3 r sh) s = done ((s.L.B &&& s.L.D) ||| (s.L.C &&& ~~~s.L.D)) ∧
      exec (.rndF4 r sh) s = done (s.L.B ^^^ (s.L.C ||| ~~~s.L.D))) ∧
    (∀ hj : s.jR.toNat < 80, s.grant = .right →
      let done := fun f : Word => Host.Outcome.next (φ := Fault) (ρ := Refusal)
        { s with
          R := ⟨s.R.E, rotl (s.R.A + f + s.X[r.toNat]'r.isLt + roundConstant .right ⟨s.jR.toNat, hj⟩) sh.toNat + s.R.E,
            s.R.B, rotl s.R.C 10, s.R.D⟩
          jR := s.jR + 1 }
      exec (.rndF0 r sh) s = done (s.R.B ^^^ s.R.C ^^^ s.R.D) ∧
      exec (.rndF1 r sh) s = done ((s.R.B &&& s.R.C) ||| (~~~s.R.B &&& s.R.D)) ∧
      exec (.rndF2 r sh) s = done ((s.R.B ||| ~~~s.R.C) ^^^ s.R.D) ∧
      exec (.rndF3 r sh) s = done ((s.R.B &&& s.R.D) ||| (s.R.C &&& ~~~s.R.D)) ∧
      exec (.rndF4 r sh) s = done (s.R.B ^^^ (s.R.C ||| ~~~s.R.D)))

/-- Where no round of the granted line is enabled: a counter above 80 in RUN raises InvalidRoundIndex (R95); in any
other case a control word changes nothing, which is the model's own choice (log 9, DEDUCED). -/
def Obligations.ControlWordsNotEnabled : Prop :=
  ∀ (w : BitVec 11) (i : Instr) (s : State), decodeCw w = .ok i →
    (s.phase = .run → (80 < s.jL.toNat ∨ 80 < s.jR.toNat) → exec i s = .next { s with ERI := true, phase := .halt }) ∧
    (s.phase = .run → s.jL.toNat ≤ 80 → s.jR.toNat ≤ 80 → (s.ctr s.grant).toNat = 80 → exec i s = .next s) ∧
    (s.phase ≠ .run → exec i s = .next s)

/-- The frame of the five control words, in every state: a control word writes the registers and the counter of the
line it is granted to and, where it raises InvalidRoundIndex, ERI and the phase. -/
def Obligations.ControlWordFrame : Prop :=
  ∀ (w : BitVec 11) (i : Instr) (s s' : State), decodeCw w = .ok i → exec i s = .next s' →
    s'.h = s.h ∧ s'.X = s.X ∧ s'.wcnt = s.wcnt ∧ s'.EBS = s.EBS ∧ s'.rom = s.rom ∧ s'.pins = s.pins ∧
    s'.sched = s.sched ∧ s'.grant = s.grant ∧ s'.draws = s.draws ∧
    s'.regs (otherLine s.grant) = s.regs (otherLine s.grant) ∧ s'.ctr (otherLine s.grant) = s.ctr (otherLine s.grant) ∧
    (s.jL.toNat ≤ 80 → s.jR.toNat ≤ 80 → s'.ERI = s.ERI ∧ s'.phase = s.phase)

/-- R89: RND.L, for a schedule ROM that holds any TABLES. -/
def Obligations.LeftRoundRule : Prop :=
  (∀ (t : Tables) (s : State), s.rom = packRom t → s.phase = .run → s.jR.toNat ≤ 80 →
    (∀ hj : s.jL.toNat < 80,
      issueRound .left s = .next
        { s with
          grant := .left
          L := roundStep s.L (combinator (band ⟨s.jL.toNat, hj⟩))
            (s.X[(messageIndex t .left ⟨s.jL.toNat, hj⟩).toNat]'(messageIndex t .left ⟨s.jL.toNat, hj⟩).isLt)
            (roundConstant .left ⟨s.jL.toNat, hj⟩) (rotationAmount t .left ⟨s.jL.toNat, hj⟩).toNat
          jL := s.jL + 1 }) ∧
    (s.jL = 80 → issueRound .left s = .next s)) ∧
  (∀ s : State, s.phase = .run → s.jR.toNat ≤ 80 → ∀ hj : s.jL.toNat < 80,
    5 ≤ (cwFsel (romRead s.rom .left ⟨s.jL.toNat, hj⟩)).toNat →
    issueRound .left s = .next { s with ERI := true, phase := .halt })

/-- R90: RND.R, for a schedule ROM that holds any TABLES: the combinator is that of `4 - band(j)`. -/
def Obligations.RightRoundRule : Prop :=
  (∀ (t : Tables) (s : State), s.rom = packRom t → s.phase = .run → s.jL.toNat ≤ 80 →
    (∀ hj : s.jR.toNat < 80,
      issueRound .right s = .next
        { s with
          grant := .right
          R := roundStep s.R (combinator (band ⟨79 - s.jR.toNat, by omega⟩))
            (s.X[(messageIndex t .right ⟨s.jR.toNat, hj⟩).toNat]'(messageIndex t .right ⟨s.jR.toNat, hj⟩).isLt)
            (roundConstant .right ⟨s.jR.toNat, hj⟩) (rotationAmount t .right ⟨s.jR.toNat, hj⟩).toNat
          jR := s.jR + 1 }) ∧
    (s.jR = 80 → issueRound .right s = .next s)) ∧
  (∀ s : State, s.phase = .run → s.jL.toNat ≤ 80 → ∀ hj : s.jR.toNat < 80,
    5 ≤ (cwFsel (romRead s.rom .right ⟨s.jR.toNat, hj⟩)).toNat →
    issueRound .right s = .next { s with ERI := true, phase := .halt })

/-- R92: the lines are independent: a round of a line reads only that line's registers and counter, the block and the
ROM, and writes only that line's registers and counter. The one case that writes anything else is a control word with a
reserved selector: the round is then not performed, and ERI and the phase are written in its place (R53, R89, R90). -/
def Obligations.LinesAreIndependent : Prop :=
  ∀ (l : Line) (s u : State) (hs : s.roundEnabled l), u.roundEnabled l →
    s.regs l = u.regs l → s.ctr l = u.ctr l → s.X = u.X → s.rom = u.rom →
    ∃ s' u', issueRound l s = .next s' ∧ issueRound l u = .next u' ∧
      s'.regs l = u'.regs l ∧ s'.ctr l = u'.ctr l ∧
      s'.regs (otherLine l) = s.regs (otherLine l) ∧ s'.ctr (otherLine l) = s.ctr (otherLine l) ∧
      s'.h = s.h ∧ s'.X = s.X ∧ s'.wcnt = s.wcnt ∧ s'.EBS = s.EBS ∧ s'.rom = s.rom ∧
      s'.pins = s.pins ∧ s'.sched = s.sched ∧ s'.draws = s.draws ∧
      ((cwFsel (romRead s.rom l ⟨(s.ctr l).toNat, hs.2.2⟩)).toNat ≤ 4 →
        s'.ERI = s.ERI ∧ s'.phase = s.phase ∧ u'.ERI = u.ERI ∧ u'.phase = u.phase) ∧
      (5 ≤ (cwFsel (romRead s.rom l ⟨(s.ctr l).toNat, hs.2.2⟩)).toNat →
        s'.ERI = true ∧ s'.phase = .halt ∧ u'.ERI = true ∧ u'.phase = .halt ∧
        s'.regs l = s.regs l ∧ s'.ctr l = s.ctr l)

/-- 43_compression_step.md section 8 (R98, which the spec derives): where both lines are enabled, their rounds
commute: left then right and right then left reach the same state. -/
def Obligations.RoundsCommute : Prop :=
  ∀ (t : Tables) (s : State), s.rom = packRom t → s.roundEnabled .left → s.roundEnabled .right →
    ∃ a b, issueTurn (.both .left) s = .next a ∧ issueTurn (.both .right) s = .next b ∧
      a.jL = s.jL + 1 ∧ a.jR = s.jR + 1 ∧ { a with grant := b.grant } = b

/-! COMBINE, FAULT and HALT. -/

/-- R93: COMBINE, in one step, from the values before the transition. -/
def Obligations.CombineRule : Prop :=
  ∀ s : State, s.nextPins.rst = false → s.phase = .run → s.jL = 80 → s.jR = 80 →
    step s = .next
      { s with
        h := ⟨s.h.h1 + s.L.C + s.R.D, s.h.h2 + s.L.D + s.R.E, s.h.h3 + s.L.E + s.R.A, s.h.h4 + s.L.A + s.R.B,
          s.h.h0 + s.L.B + s.R.C⟩
        wcnt := 0
        phase := .idle
        pins := s.pins.tail }

/-- R95: FAULT is what happens, and all that happens, with a counter above 80 in RUN. -/
def Obligations.FaultRule : Prop :=
  ∀ s : State, s.nextPins.rst = false → s.phase = .run → (80 < s.jL.toNat ∨ 80 < s.jR.toNat) →
    step s = .next { s with ERI := true, phase := .halt, pins := s.pins.tail }

/-- 10_state.md section 4 and 60_exceptions.md section 1 (R19, R102): in HALT no instruction has an effect, no
micro-operation is taken, and only RST leaves it. That a step in HALT answers a next state, where the spec says stuck
(U18), is the model's choice (log 14, DEDUCED). -/
def Obligations.HaltOnlyLeftByReset : Prop :=
  (∀ s : State, s.phase = .halt → s.nextPins.rst = false → step s = .next { s with pins := s.pins.tail }) ∧
  (∀ (i : Instr) (s : State), s.phase = .halt → exec i s = .next s) ∧
  (∀ s : State, s.phase = .halt → s.ready = false ∧ s.busy = false) ∧
  (∀ s s' : State, s.phase = .halt → step s = .next s' → s'.phase ≠ .halt → s.nextPins.rst = true ∧ s'.phase = .idle)

/-! Host commands (40_commands.md). -/

/-- R64: NOP changes nothing, whether accepted or not. -/
def Obligations.NopRule : Prop :=
  decodeCmd 0x000000000 = .nop 0 ∧ ∀ (d : Word) (s : State), exec (.nop d) s = .next s

/-- R61: INIT creates a new CompressionState; it cannot interrupt a compression nor leave HALT; directly after reset
it changes nothing. -/
def Obligations.InitRule : Prop :=
  decodeCmd 0x100000000 = .init 0 ∧
  (∀ (d : Word) (s : State), s.phase = .idle →
    exec (.init d) s = .next
      { s with h := ⟨0x67452301, 0xEFCDAB89, 0x98BADCFE, 0x10325476, 0xC3D2E1F0⟩, wcnt := 0, EBS := false }) ∧
  (∀ (d : Word) (s : State), s.phase ≠ .idle → exec (.init d) s = .next s) ∧
  (∀ d : Word, exec (.init d) State.reset = .next State.reset)

/-- R62: PUSH, with room in the buffer, with a full buffer, and when it is not accepted. -/
def Obligations.PushRule : Prop :=
  (∀ d : Word, decodeCmd (2#2 ++ d) = .push d) ∧
  (∀ (d : Word) (s : State), s.phase = .idle → ∀ hw : s.wcnt.toNat ≤ 15,
    exec (.push d) s = .next { s with X := s.X.set s.wcnt.toNat d (by omega), wcnt := s.wcnt + 1 }) ∧
  (∀ (d : Word) (s : State), s.phase = .idle → 16 ≤ s.wcnt.toNat → exec (.push d) s = .next { s with wcnt := 17 }) ∧
  (∀ (d : Word) (s : State), s.phase ≠ .idle → exec (.push d) s = .next s)

/-- R88: SEED, the transition of an accepted COMPRESS with a full block. -/
def Obligations.CompressSeedsBothLines : Prop :=
  ∀ (d : Word) (s : State), s.phase = .idle → s.wcnt = 16 →
    exec (.compress d) s = .next
      { s with
        L := ⟨s.h.h0, s.h.h1, s.h.h2, s.h.h3, s.h.h4⟩
        R := ⟨s.h.h0, s.h.h1, s.h.h2, s.h.h3, s.h.h4⟩
        jL := 0
        jR := 0
        phase := .run }

/-- R101: InvalidBlockSize: COMPRESS with any other number of words. -/
def Obligations.InvalidBlockSizeRule : Prop :=
  (∀ (d : Word) (s : State), s.phase = .idle → s.wcnt ≠ 16 →
    exec (.compress d) s = .next { s with EBS := true, wcnt := 0 }) ∧
  (∀ (i : Instr) (s s' : State), exec i s = .next s' → s.EBS = false → s'.EBS = true →
    (∃ d, i = .compress d) ∧ s.phase = .idle ∧ s.wcnt ≠ 16)

/-- R60: a command is accepted exactly in IDLE; otherwise it has no effect, and what stands on the port makes no
difference to the step. -/
def Obligations.AcceptanceRule : Prop :=
  (∀ (w : BitVec 34) (s : State), s.phase ≠ .idle → exec (decodeCmd w) s = .next s) ∧
  (∀ (w : BitVec 34) (s : State), s.phase ≠ .idle →
    step { s with pins := ⟨s.nextPins.rst, w⟩ :: s.pins.tail } = step s) ∧
  (∀ s : State, s.phase = .idle → s.nextPins.rst = false →
    step s = exec (decodeCmd s.nextPins.cmd) { s with pins := s.pins.tail })

/-- The frame of the four commands, in every state: no command writes the ROM, ERI, the pins or the choices to come;
only COMPRESS writes the working registers, the counters and the phase; only PUSH writes the block; only INIT writes
the state words. -/
def Obligations.CommandFrame : Prop :=
  ∀ (w : BitVec 34) (s s' : State), exec (decodeCmd w) s = .next s' →
    (s'.rom = s.rom ∧ s'.ERI = s.ERI ∧ s'.pins = s.pins ∧ s'.sched = s.sched ∧ s'.grant = s.grant ∧
      s'.draws = s.draws) ∧
    (cmdOp w ≠ 3 → s'.L = s.L ∧ s'.R = s.R ∧ s'.jL = s.jL ∧ s'.jR = s.jR ∧ s'.phase = s.phase) ∧
    (cmdOp w ≠ 2 → s'.X = s.X) ∧
    (cmdOp w = 2 → ∀ i : Fin 16, i.val ≠ s.wcnt.toNat → s'.X[i] = s.X[i]) ∧
    (cmdOp w ≠ 1 → s'.h = s.h) ∧
    (cmdOp w = 0 ∨ cmdOp w = 2 → s'.EBS = s.EBS)

/-! The step. -/

/-- In IDLE without reset a step is the meaning of the instruction that the word on the port decodes to, in the state
whose pin sample is used up. -/
def Obligations.StepRunsAcceptedCommand : Prop :=
  ∀ (s : State) (i : Instr), s.phase = .idle → s.nextPins.rst = false → decodeCmd s.nextPins.cmd = i →
    step s = exec i { s with pins := s.pins.tail }

/-- In RUN without reset, with the counters in range, a step executes the control word that the schedule ROM holds for
the line and its counter: for the only line below 80; for the line SCHEDULE chooses where both are; and for both, one
in the state the other leaves, where it chooses both and the first leaves the engine in RUN. -/
def Obligations.StepRunsControlWord : Prop :=
  ∀ (s : State) (l : Line) (i : Instr), s.phase = .run → s.nextPins.rst = false →
    ∀ hj : (s.ctr l).toNat < 80, decodeCw (romRead s.rom l ⟨(s.ctr l).toNat, hj⟩) = .ok i →
    ((s.ctr (otherLine l)) = 80 → step s = exec i { s with pins := s.pins.tail, grant := l }) ∧
    (∀ rest, (s.ctr (otherLine l)).toNat < 80 → s.sched = .one l :: rest →
      step s = exec i { s with pins := s.pins.tail, sched := rest, grant := l }) ∧
    (∀ rest m k, ∀ hk : (s.ctr (otherLine l)).toNat < 80, s.sched = .both l :: rest →
      exec i { s with pins := s.pins.tail, sched := rest, grant := l } = .next m →
      decodeCw (romRead s.rom (otherLine l) ⟨(s.ctr (otherLine l)).toNat, hk⟩) = .ok k →
      step s = exec k { m with grant := otherLine l })

/-- 60_exceptions.md section 1 (R100, R104): beside the two errors nothing is raised: no instruction and no step ends in
a fault or a refusal, in any state. It is the model's choice that both errors are next states with their flag written
and that a step in HALT, which the spec calls stuck (U18), answers one (log 14, DEDUCED), and that a control word
answers one where no round is enabled (log 9, DEDUCED). -/
def Obligations.NothingStops : Prop :=
  (∀ (i : Instr) (s : State), ∃ s', exec i s = .next s') ∧ ∀ s : State, ∃ s', step s = .next s'

/-- The model's own interface (log 3): in the state `withFetchWord` makes, the next step runs exactly the word: a
command word in IDLE, a control word as the left line's round 0. -/
def Obligations.PlacedWordRuns : Prop :=
  ∀ (s : State) (w : Nat) (i : Instr),
    (decodeTableWord 40 w = some i →
      step (s.withFetchWord 40 w) = exec i { s.withFetchWord 40 w with pins := s.pins }) ∧
    (decodeTableWord 16 w = some i →
      step (s.withFetchWord 16 w) =
        exec i { s.withFetchWord 16 w with pins := s.pins, sched := s.sched, grant := .left })

/-! Reset (70_reset_and_hazards.md). -/

/-- R116, R117: the reset transition, from every state and whatever stands on CMD; the block buffer and the working
registers are left open, and the schedule ROM is not written. It is the only way out of HALT and the only way to clear
ERI. -/
def Obligations.ResetTransitionRule : Prop :=
  (∀ s : State, s.nextPins.rst = true → ∃ s', step s = .next s' ∧
    s'.h = ⟨0x67452301, 0xEFCDAB89, 0x98BADCFE, 0x10325476, 0xC3D2E1F0⟩ ∧ s'.phase = .idle ∧ s'.jL = 0 ∧ s'.jR = 0 ∧
    s'.wcnt = 0 ∧ s'.EBS = false ∧ s'.ERI = false ∧ s'.rom = s.rom ∧ s'.pins = s.pins.tail) ∧
  (∀ (s : State) (w : BitVec 34), s.nextPins.rst = true →
    step { s with pins := ⟨true, w⟩ :: s.pins.tail } = step s) ∧
  (∀ s s' : State, step s = .next s' → s.nextPins.rst = false →
    (s.phase = .halt → s'.phase = .halt) ∧ (s.ERI = true → s'.ERI = true))

/-- 70_reset_and_hazards.md section 1 (R118): the engine right after every reset, whatever the state before and whatever
the free values drawn, and in the fixed state `State.reset` (whose zeros of log 7 the statement does not use). That INIT
changes nothing there is a sentence the spec marks as derived. -/
def Obligations.ReadyAfterReset : Prop :=
  (∀ s : State, s.nextPins.rst = true → ∃ s', step s = .next s' ∧
    s'.ready = true ∧ s'.status = 0x00 ∧ s'.digest = 0xC3D2E1F01032547698BADCFEEFCDAB8967452301 ∧
    ∀ d : Word, exec (.init d) s' = .next s') ∧
  State.reset.ready = true ∧ State.reset.status = 0x00 ∧
  State.reset.digest = 0xC3D2E1F01032547698BADCFEEFCDAB8967452301 ∧
  ∀ d : Word, exec (.init d) State.reset = .next State.reset

/-- The invariant of R29 holds at reset, for the supplied tables. -/
def Obligations.InvariantAtReset : Prop := State.reset.Inv suppliedTables

/-- 10_state.md section 8 (R29, which the spec derives), for every TABLES: every step keeps the invariant: the phase is
IDLE or RUN, ERI is 0, `wcnt` is at most 17, and in RUN the block is full, the counters are in 0..80 and the registers
of each line are the result of as many rounds, applied to the state words. -/
def Obligations.StepKeepsInvariant : Prop :=
  ∀ (t : Tables) (s s' : State), s.Inv t → step s = .next s' → s'.Inv t

/-! Rules of the whole machine. -/

/-- 10_state.md section 2 (R16): the state words after a step: they are written by reset, by an accepted INIT and by
COMBINE, each time all five at once, and by nothing else. -/
def Obligations.StateWordsWriters : Prop :=
  ∀ s s' : State, step s = .next s' →
    s'.h =
      if s.nextPins.rst = true then initialConstants
      else if s.phase = .idle ∧ cmdOp s.nextPins.cmd = 1 then initialConstants
      else if s.phase = .run ∧ s.jL = 80 ∧ s.jR = 80 then recombine s.h s.L s.R
      else s.h

/-- R34, R35: the block buffer is written by an accepted PUSH at index `wcnt` with `wcnt <= 15` and by nothing else but
reset, which leaves it open; so it is constant during a compression. -/
def Obligations.BlockBufferWriters : Prop :=
  ∀ s s' : State, step s = .next s' → s.nextPins.rst = false →
    s'.X =
      if s.phase = .idle ∧ cmdOp s.nextPins.cmd = 2 ∧ s.wcnt.toNat ≤ 15 then
        s.X.setIfInBounds s.wcnt.toNat (cmdData s.nextPins.cmd)
      else s.X

/-- R37: no step and no instruction writes the schedule ROM. -/
def Obligations.RomNeverWritten : Prop :=
  (∀ s s' : State, step s = .next s' → s'.rom = s.rom) ∧
  ∀ (i : Instr) (s s' : State), exec i s = .next s' → s'.rom = s.rom

/-- R22: the block fill counter after a step; it never comes to be above 17. -/
def Obligations.FillCounterRule : Prop :=
  ∀ s s' : State, step s = .next s' →
    (s.wcnt.toNat ≤ 17 → s'.wcnt.toNat ≤ 17) ∧
    s'.wcnt =
      if s.nextPins.rst = true then 0
      else if s.phase = .idle then
        if cmdOp s.nextPins.cmd = 1 then 0
        else if cmdOp s.nextPins.cmd = 2 then (if s.wcnt.toNat ≤ 15 then s.wcnt + 1 else 17)
        else if cmdOp s.nextPins.cmd = 3 ∧ s.wcnt ≠ 16 then 0
        else s.wcnt
      else if s.phase = .run ∧ s.jL = 80 ∧ s.jR = 80 then 0
      else s.wcnt

/-- 43_compression_step.md section 6 (R96) and 10_state.md section 4 (R19): the control transfer, with a schedule ROM
that holds TABLES. -/
def Obligations.PhaseTransfer : Prop :=
  ∀ (t : Tables) (s s' : State), s.rom = packRom t → step s = .next s' →
    s'.phase =
      if s.nextPins.rst = true then .idle
      else
        match s.phase with
        | .idle => if cmdOp s.nextPins.cmd = 3 ∧ s.wcnt = 16 then .run else .idle
        | .run => if 80 < s.jL.toNat ∨ 80 < s.jR.toNat then .halt else if s.jL = 80 ∧ s.jR = 80 then .idle else .run
        | .halt => .halt

/-- 43_compression_step.md section 9 (R99, which the spec derives): in RUN with the counters in range and not both at
80, a step without reset takes one or two rounds: each counter grows by at most one and at least one grows. -/
def Obligations.RunStepsAdvance : Prop :=
  ∀ (t : Tables) (s s' : State), s.rom = packRom t → step s = .next s' → s.nextPins.rst = false → s.phase = .run →
    s.jL.toNat ≤ 80 → s.jR.toNat ≤ 80 → s.jL.toNat + s.jR.toNat < 160 →
    s'.jL.toNat ≤ 80 ∧ s'.jR.toNat ≤ 80 ∧ s.jL.toNat ≤ s'.jL.toNat ∧ s.jR.toNat ≤ s'.jR.toNat ∧
      s'.jL.toNat ≤ s.jL.toNat + 1 ∧ s'.jR.toNat ≤ s.jR.toNat + 1 ∧
      s.jL.toNat + s.jR.toNat < s'.jL.toNat + s'.jR.toNat

/-- R23: the flag EBS: what sets it, what clears it, that it is sticky between, and that no rule reads it. -/
def Obligations.EbsRule : Prop :=
  (∀ s s' : State, step s = .next s' →
    s'.EBS =
      if s.nextPins.rst = true then false
      else if s.phase = .idle ∧ cmdOp s.nextPins.cmd = 1 then false
      else if s.phase = .idle ∧ cmdOp s.nextPins.cmd = 3 ∧ s.wcnt ≠ 16 then true
      else s.EBS) ∧
  ∀ (s s' : State) (b : Bool), step s = .next s' →
    ∃ u, step { s with EBS := b } = .next u ∧ { u with EBS := s'.EBS } = s'

/-- 10_state.md section 6 (R24): the flag ERI: with a schedule ROM that holds TABLES it is set by FAULT alone and
cleared by reset alone, and it stays equivalent to HALT. -/
def Obligations.EriRule : Prop :=
  ∀ (t : Tables) (s s' : State), s.rom = packRom t → step s = .next s' →
    (s'.ERI =
      if s.nextPins.rst = true then false
      else if s.phase = .run ∧ (80 < s.jL.toNat ∨ 80 < s.jR.toNat) then true
      else s.ERI) ∧
    ((s.ERI = true ↔ s.phase = .halt) → (s'.ERI = true ↔ s'.phase = .halt))

/-! Ports. -/

/-- R25, R56, R26, R103: the layout of STATUS, READY, and the error code. -/
def Obligations.StatusLayout : Prop :=
  State.reset.status = 0x00 ∧
  ∀ s : State,
    s.status.getLsbD 7 = s.ERI ∧ s.status.getLsbD 6 = s.EBS ∧ (s.status.getLsbD 5 = true ↔ s.phase = .run) ∧
    s.status.extractLsb' 0 5 = s.wcnt ∧ (s.ready = true ↔ s.phase = .idle) ∧
    s.errorCode.toNat = 2 * s.ERI.toNat + s.EBS.toNat

/-- R57: the layout of DIGEST. -/
def Obligations.DigestLayout : Prop :=
  (∀ s : State,
    s.digest.extractLsb' 0 32 = s.h.h0 ∧ s.digest.extractLsb' 32 32 = s.h.h1 ∧ s.digest.extractLsb' 64 32 = s.h.h2 ∧
    s.digest.extractLsb' 96 32 = s.h.h3 ∧ s.digest.extractLsb' 128 32 = s.h.h4) ∧
  ∀ s : State, s.h = ⟨0xA585119C, 0x54FCE9C5, 0x97082861, 0x48F5E87E, 0x318D25B2⟩ →
    s.digest = 0x318D25B248F5E87E9708286154FCE9C5A585119C

/-! Headline results. -/

/-- 10_state.md sections 8 and 9 (R28, R30): two states that differ only in what is hidden and not yet overwritten show
the same at the ports, and stay so at every step, under the same inputs and the same choices of SCHEDULE. -/
def Obligations.HiddenStateIsUnobservable : Prop :=
  ∀ s u : State, s.agree u → s.observe = u.observe ∧
    ∃ s' u', step s = .next s' ∧ step u = .next u' ∧ s'.agree u'

/-- 43_compression_step.md sections 7 to 9 (R97 to R99, derived there): for every TABLES, from every state of RUN that
meets the invariant, for every SCHEDULE, and as long as RST is not asserted, the compression finishes: the rounds left
are taken one or two a step, then COMBINE; DIGEST shows the state from before the block until then, and
`compress(h, X)` after. The counts are of steps, each of which is a transition and not a clock edge (log 8, DEDUCED). -/
def Obligations.CompressionFinishes : Prop :=
  ∀ (t : Tables) (s : State), s.Inv t → s.phase = .run → s.noReset →
    ∃ n s', steps n s = .next s' ∧ n + s.jL.toNat + s.jR.toNat ≤ 161 ∧ 162 ≤ 2 * n + s.jL.toNat + s.jR.toNat ∧
      s'.phase = .idle ∧ s'.h = compress t s.h s.X ∧ s'.wcnt = 0 ∧ s'.X = s.X ∧ s'.EBS = s.EBS ∧ s'.ERI = false ∧
      ∀ m, m < n → ∃ u, steps m s = .next u ∧ u.phase = .run ∧ u.digest = s.digest ∧ u.status = s.status

/-- 40_commands.md section 4 (R63) and 43_compression_step.md section 1 (R87): an accepted COMPRESS with a full block
ends in IDLE with `compress(h, X)` in the state words, after SEED, 80 rounds of each line and COMBINE: 82 to 162 steps,
which are transitions and not clock edges (log 8, DEDUCED). -/
def Obligations.CompressCommandComputes : Prop :=
  ∀ (t : Tables) (s : State), s.Inv t → s.phase = .idle → s.wcnt = 16 → s.noReset → cmdOp s.nextPins.cmd = 3 →
    ∃ n s', 82 ≤ n ∧ n ≤ 162 ∧ steps n s = .next s' ∧
      s'.phase = .idle ∧ s'.h = compress t s.h s.X ∧ s'.wcnt = 0 ∧ s'.EBS = s.EBS ∧ s'.ERI = false ∧
      ∀ m, 0 < m → m < n → ∃ u, steps m s = .next u ∧ u.phase = .run ∧ u.ready = false ∧ u.digest = s.digest

/-- 70_reset_and_hazards.md section 2 (R119 step 4): sixteen PUSH and a COMPRESS, presented one after another to an
idle engine with an empty buffer, fold the sixteen words, in that order, into the state. The count of 98 to 178 steps is
sixteen PUSH, SEED, 80 rounds of each line one or two a step (R98, R99) and COMBINE; that a step is one transition and
not a clock edge is log 8 (DEDUCED), and that it uses up one sample of the pins is log 2 (DESIGN CHOICE). -/
def Obligations.BlockProtocolComputes : Prop :=
  ∀ (t : Tables) (s : State) (W : Vector Word 16) (rest : List Pins),
    s.Inv t → s.phase = .idle → s.wcnt = 0 → s.noReset →
    s.pins = W.toList.map (fun w => ⟨false, packCmd 2 w⟩) ++ ⟨false, packCmd 3 0⟩ :: rest →
    ∃ n s', 98 ≤ n ∧ n ≤ 178 ∧ steps n s = .next s' ∧
      s'.phase = .idle ∧ s'.h = compress t s.h W ∧ s'.wcnt = 0 ∧ s'.EBS = s.EBS ∧ s'.ERI = false
end

