-- ==== Sys2Proof/Laws/Encoding.lean ====
section
/-! SUPPORT. The fields of a packed word are what was packed (R47, R52), and what the decoder says of a packed control
word (R53). -/

namespace Sys2Proof

/-- Bit `i` of a packed command word. -/
theorem getLsbD_packCmd (op : BitVec 2) (d : Word) (i : Nat) :
    (packCmd op d).getLsbD i = if i < 32 then d.getLsbD i else op.getLsbD (i - 32) :=
  BitVec.getLsbD_append

/-- Bit `i` of a packed control word. -/
theorem getLsbD_packCw (f : BitVec 3) (r s : BitVec 4) (i : Nat) :
    (packCw f r s).getLsbD i =
      if i < 4 then s.getLsbD i else if i - 4 < 4 then r.getLsbD (i - 4) else f.getLsbD (i - 4 - 4) := by
  rw [← BitVec.getLsbD_append (x := f) (y := r)]
  exact BitVec.getLsbD_append

@[simp] theorem cmdOp_packCmd (op : BitVec 2) (d : Word) : cmdOp (packCmd op d) = op := by
  apply BitVec.eq_of_getLsbD_eq
  intro i hi
  simp [cmdOp, getLsbD_packCmd, hi]

@[simp] theorem cmdData_packCmd (op : BitVec 2) (d : Word) : cmdData (packCmd op d) = d := by
  apply BitVec.eq_of_getLsbD_eq
  intro i hi
  simp [cmdData, getLsbD_packCmd, hi]

@[simp] theorem cwFsel_packCw (f : BitVec 3) (r s : BitVec 4) : cwFsel (packCw f r s) = f := by
  apply BitVec.eq_of_getLsbD_eq
  intro i hi
  simp [cwFsel, getLsbD_packCw, hi, show ¬ 8 + i < 4 by omega, show ¬ 8 + i - 4 < 4 by omega,
    show 8 + i - 4 - 4 = i by omega]

@[simp] theorem cwR_packCw (f : BitVec 3) (r s : BitVec 4) : cwR (packCw f r s) = r := by
  apply BitVec.eq_of_getLsbD_eq
  intro i hi
  simp [cwR, getLsbD_packCw, hi, show ¬ 4 + i < 4 by omega, show 4 + i - 4 = i by omega]

@[simp] theorem cwS_packCw (f : BitVec 3) (r s : BitVec 4) : cwS (packCw f r s) = s := by
  apply BitVec.eq_of_getLsbD_eq
  intro i hi
  simp [cwS, getLsbD_packCw, hi]

/-- A control word whose selector is not reserved decodes to a round, and no other does. -/
theorem decodeCw_isOk_iff (w : BitVec 11) : (∃ i, decodeCw w = .ok i) ↔ (cwFsel w).toNat ≤ 4 := by
  have key : ∀ f : BitVec 3, f.toNat ≤ 4 ↔ f = 0 ∨ f = 1 ∨ f = 2 ∨ f = 3 ∨ f = 4 := by decide
  rw [key]
  unfold decodeCw
  split_ifs <;> simp_all

namespace Machine

/-- What the packed ROM holds is the packed control word. -/
@[simp] theorem romRead_packRom (t : Tables) (l : Line) (j : Fin 80) : romRead (packRom t) l j = controlWord t l j := by
  cases l <;> simp [romRead, packRom]

/-- The selector of a round is the number of a combinator (R53, R73, R74). -/
theorem roundFsel_le (l : Line) (j : Fin 80) : (roundFsel l j).toNat ≤ 4 := by
  have hb : ∀ k : Fin 80, (roundFunction k).toNat ≤ 4 := by decide
  cases l <;> exact hb _

end Machine

end Sys2Proof
end

