-- ==== Sys2Proof/Laws/State.lean ====
section
/-! SUPPORT. One lemma per field for each named update of State, so that no proof unfolds a record update. -/

namespace Sys2Proof.Machine

@[simp] theorem raiseInvalidBlockSize_h (s : State) : (raiseInvalidBlockSize s).h = s.h := rfl
@[simp] theorem raiseInvalidBlockSize_L (s : State) : (raiseInvalidBlockSize s).L = s.L := rfl
@[simp] theorem raiseInvalidBlockSize_R (s : State) : (raiseInvalidBlockSize s).R = s.R := rfl
@[simp] theorem raiseInvalidBlockSize_X (s : State) : (raiseInvalidBlockSize s).X = s.X := rfl
@[simp] theorem raiseInvalidBlockSize_wcnt (s : State) : (raiseInvalidBlockSize s).wcnt = 0 := rfl
@[simp] theorem raiseInvalidBlockSize_phase (s : State) : (raiseInvalidBlockSize s).phase = s.phase := rfl
@[simp] theorem raiseInvalidBlockSize_jL (s : State) : (raiseInvalidBlockSize s).jL = s.jL := rfl
@[simp] theorem raiseInvalidBlockSize_jR (s : State) : (raiseInvalidBlockSize s).jR = s.jR := rfl
@[simp] theorem raiseInvalidBlockSize_EBS (s : State) : (raiseInvalidBlockSize s).EBS = true := rfl
@[simp] theorem raiseInvalidBlockSize_ERI (s : State) : (raiseInvalidBlockSize s).ERI = s.ERI := rfl
@[simp] theorem raiseInvalidBlockSize_rom (s : State) : (raiseInvalidBlockSize s).rom = s.rom := rfl
@[simp] theorem raiseInvalidBlockSize_pins (s : State) : (raiseInvalidBlockSize s).pins = s.pins := rfl
@[simp] theorem raiseInvalidBlockSize_sched (s : State) : (raiseInvalidBlockSize s).sched = s.sched := rfl
@[simp] theorem raiseInvalidBlockSize_grant (s : State) : (raiseInvalidBlockSize s).grant = s.grant := rfl
@[simp] theorem raiseInvalidBlockSize_draws (s : State) : (raiseInvalidBlockSize s).draws = s.draws := rfl

@[simp] theorem raiseInvalidRoundIndex_h (s : State) : (raiseInvalidRoundIndex s).h = s.h := rfl
@[simp] theorem raiseInvalidRoundIndex_L (s : State) : (raiseInvalidRoundIndex s).L = s.L := rfl
@[simp] theorem raiseInvalidRoundIndex_R (s : State) : (raiseInvalidRoundIndex s).R = s.R := rfl
@[simp] theorem raiseInvalidRoundIndex_X (s : State) : (raiseInvalidRoundIndex s).X = s.X := rfl
@[simp] theorem raiseInvalidRoundIndex_wcnt (s : State) : (raiseInvalidRoundIndex s).wcnt = s.wcnt := rfl
@[simp] theorem raiseInvalidRoundIndex_phase (s : State) : (raiseInvalidRoundIndex s).phase = .halt := rfl
@[simp] theorem raiseInvalidRoundIndex_jL (s : State) : (raiseInvalidRoundIndex s).jL = s.jL := rfl
@[simp] theorem raiseInvalidRoundIndex_jR (s : State) : (raiseInvalidRoundIndex s).jR = s.jR := rfl
@[simp] theorem raiseInvalidRoundIndex_EBS (s : State) : (raiseInvalidRoundIndex s).EBS = s.EBS := rfl
@[simp] theorem raiseInvalidRoundIndex_ERI (s : State) : (raiseInvalidRoundIndex s).ERI = true := rfl
@[simp] theorem raiseInvalidRoundIndex_rom (s : State) : (raiseInvalidRoundIndex s).rom = s.rom := rfl
@[simp] theorem raiseInvalidRoundIndex_pins (s : State) : (raiseInvalidRoundIndex s).pins = s.pins := rfl
@[simp] theorem raiseInvalidRoundIndex_sched (s : State) : (raiseInvalidRoundIndex s).sched = s.sched := rfl
@[simp] theorem raiseInvalidRoundIndex_grant (s : State) : (raiseInvalidRoundIndex s).grant = s.grant := rfl
@[simp] theorem raiseInvalidRoundIndex_draws (s : State) : (raiseInvalidRoundIndex s).draws = s.draws := rfl

@[simp] theorem seed_h (s : State) : (seed s).h = s.h := rfl
@[simp] theorem seed_L (s : State) : (seed s).L = seedRegs s.h := rfl
@[simp] theorem seed_R (s : State) : (seed s).R = seedRegs s.h := rfl
@[simp] theorem seed_X (s : State) : (seed s).X = s.X := rfl
@[simp] theorem seed_wcnt (s : State) : (seed s).wcnt = s.wcnt := rfl
@[simp] theorem seed_phase (s : State) : (seed s).phase = .run := rfl
@[simp] theorem seed_jL (s : State) : (seed s).jL = 0 := rfl
@[simp] theorem seed_jR (s : State) : (seed s).jR = 0 := rfl
@[simp] theorem seed_EBS (s : State) : (seed s).EBS = s.EBS := rfl
@[simp] theorem seed_ERI (s : State) : (seed s).ERI = s.ERI := rfl
@[simp] theorem seed_rom (s : State) : (seed s).rom = s.rom := rfl
@[simp] theorem seed_pins (s : State) : (seed s).pins = s.pins := rfl
@[simp] theorem seed_sched (s : State) : (seed s).sched = s.sched := rfl
@[simp] theorem seed_grant (s : State) : (seed s).grant = s.grant := rfl
@[simp] theorem seed_draws (s : State) : (seed s).draws = s.draws := rfl

@[simp] theorem combine_h (s : State) : (combine s).h = recombine s.h s.L s.R := rfl
@[simp] theorem combine_L (s : State) : (combine s).L = s.L := rfl
@[simp] theorem combine_R (s : State) : (combine s).R = s.R := rfl
@[simp] theorem combine_X (s : State) : (combine s).X = s.X := rfl
@[simp] theorem combine_wcnt (s : State) : (combine s).wcnt = 0 := rfl
@[simp] theorem combine_phase (s : State) : (combine s).phase = .idle := rfl
@[simp] theorem combine_jL (s : State) : (combine s).jL = s.jL := rfl
@[simp] theorem combine_jR (s : State) : (combine s).jR = s.jR := rfl
@[simp] theorem combine_EBS (s : State) : (combine s).EBS = s.EBS := rfl
@[simp] theorem combine_ERI (s : State) : (combine s).ERI = s.ERI := rfl
@[simp] theorem combine_rom (s : State) : (combine s).rom = s.rom := rfl
@[simp] theorem combine_pins (s : State) : (combine s).pins = s.pins := rfl
@[simp] theorem combine_sched (s : State) : (combine s).sched = s.sched := rfl
@[simp] theorem combine_grant (s : State) : (combine s).grant = s.grant := rfl
@[simp] theorem combine_draws (s : State) : (combine s).draws = s.draws := rfl

@[simp] theorem resetTransition_h (s : State) : (resetTransition s).h = initialConstants := rfl
@[simp] theorem resetTransition_L (s : State) : (resetTransition s).L = freeRegs (s.draws + 16) := rfl
@[simp] theorem resetTransition_R (s : State) : (resetTransition s).R = freeRegs (s.draws + 21) := rfl
@[simp] theorem resetTransition_X (s : State) : (resetTransition s).X = freeBlock s.draws := rfl
@[simp] theorem resetTransition_wcnt (s : State) : (resetTransition s).wcnt = 0 := rfl
@[simp] theorem resetTransition_phase (s : State) : (resetTransition s).phase = .idle := rfl
@[simp] theorem resetTransition_jL (s : State) : (resetTransition s).jL = 0 := rfl
@[simp] theorem resetTransition_jR (s : State) : (resetTransition s).jR = 0 := rfl
@[simp] theorem resetTransition_EBS (s : State) : (resetTransition s).EBS = false := rfl
@[simp] theorem resetTransition_ERI (s : State) : (resetTransition s).ERI = false := rfl
@[simp] theorem resetTransition_rom (s : State) : (resetTransition s).rom = s.rom := rfl
@[simp] theorem resetTransition_pins (s : State) : (resetTransition s).pins = s.pins := rfl
@[simp] theorem resetTransition_sched (s : State) : (resetTransition s).sched = s.sched := rfl
@[simp] theorem resetTransition_grant (s : State) : (resetTransition s).grant = s.grant := rfl
@[simp] theorem resetTransition_draws (s : State) : (resetTransition s).draws = s.draws + 26 := rfl

@[simp] theorem initEffect_h (s : State) : (initEffect s).h = initialConstants := rfl
@[simp] theorem initEffect_L (s : State) : (initEffect s).L = s.L := rfl
@[simp] theorem initEffect_R (s : State) : (initEffect s).R = s.R := rfl
@[simp] theorem initEffect_X (s : State) : (initEffect s).X = s.X := rfl
@[simp] theorem initEffect_wcnt (s : State) : (initEffect s).wcnt = 0 := rfl
@[simp] theorem initEffect_phase (s : State) : (initEffect s).phase = s.phase := rfl
@[simp] theorem initEffect_jL (s : State) : (initEffect s).jL = s.jL := rfl
@[simp] theorem initEffect_jR (s : State) : (initEffect s).jR = s.jR := rfl
@[simp] theorem initEffect_EBS (s : State) : (initEffect s).EBS = false := rfl
@[simp] theorem initEffect_ERI (s : State) : (initEffect s).ERI = s.ERI := rfl
@[simp] theorem initEffect_rom (s : State) : (initEffect s).rom = s.rom := rfl
@[simp] theorem initEffect_pins (s : State) : (initEffect s).pins = s.pins := rfl
@[simp] theorem initEffect_sched (s : State) : (initEffect s).sched = s.sched := rfl
@[simp] theorem initEffect_grant (s : State) : (initEffect s).grant = s.grant := rfl
@[simp] theorem initEffect_draws (s : State) : (initEffect s).draws = s.draws := rfl

@[simp] theorem memWrite_h (s : State) (i : Fin 16) (v : Word) : (memWrite s i v).h = s.h := rfl
@[simp] theorem memWrite_L (s : State) (i : Fin 16) (v : Word) : (memWrite s i v).L = s.L := rfl
@[simp] theorem memWrite_R (s : State) (i : Fin 16) (v : Word) : (memWrite s i v).R = s.R := rfl
@[simp] theorem memWrite_X (s : State) (i : Fin 16) (v : Word) : (memWrite s i v).X = s.X.set i v := rfl
@[simp] theorem memWrite_wcnt (s : State) (i : Fin 16) (v : Word) : (memWrite s i v).wcnt = s.wcnt := rfl
@[simp] theorem memWrite_phase (s : State) (i : Fin 16) (v : Word) : (memWrite s i v).phase = s.phase := rfl
@[simp] theorem memWrite_jL (s : State) (i : Fin 16) (v : Word) : (memWrite s i v).jL = s.jL := rfl
@[simp] theorem memWrite_jR (s : State) (i : Fin 16) (v : Word) : (memWrite s i v).jR = s.jR := rfl
@[simp] theorem memWrite_EBS (s : State) (i : Fin 16) (v : Word) : (memWrite s i v).EBS = s.EBS := rfl
@[simp] theorem memWrite_ERI (s : State) (i : Fin 16) (v : Word) : (memWrite s i v).ERI = s.ERI := rfl
@[simp] theorem memWrite_rom (s : State) (i : Fin 16) (v : Word) : (memWrite s i v).rom = s.rom := rfl
@[simp] theorem memWrite_pins (s : State) (i : Fin 16) (v : Word) : (memWrite s i v).pins = s.pins := rfl
@[simp] theorem memWrite_sched (s : State) (i : Fin 16) (v : Word) : (memWrite s i v).sched = s.sched := rfl
@[simp] theorem memWrite_grant (s : State) (i : Fin 16) (v : Word) : (memWrite s i v).grant = s.grant := rfl
@[simp] theorem memWrite_draws (s : State) (i : Fin 16) (v : Word) : (memWrite s i v).draws = s.draws := rfl

@[simp] theorem dropPins_h (s : State) : s.dropPins.h = s.h := rfl
@[simp] theorem dropPins_L (s : State) : s.dropPins.L = s.L := rfl
@[simp] theorem dropPins_R (s : State) : s.dropPins.R = s.R := rfl
@[simp] theorem dropPins_X (s : State) : s.dropPins.X = s.X := rfl
@[simp] theorem dropPins_wcnt (s : State) : s.dropPins.wcnt = s.wcnt := rfl
@[simp] theorem dropPins_phase (s : State) : s.dropPins.phase = s.phase := rfl
@[simp] theorem dropPins_jL (s : State) : s.dropPins.jL = s.jL := rfl
@[simp] theorem dropPins_jR (s : State) : s.dropPins.jR = s.jR := rfl
@[simp] theorem dropPins_EBS (s : State) : s.dropPins.EBS = s.EBS := rfl
@[simp] theorem dropPins_ERI (s : State) : s.dropPins.ERI = s.ERI := rfl
@[simp] theorem dropPins_rom (s : State) : s.dropPins.rom = s.rom := rfl
@[simp] theorem dropPins_pins (s : State) : s.dropPins.pins = s.pins.tail := rfl
@[simp] theorem dropPins_sched (s : State) : s.dropPins.sched = s.sched := rfl
@[simp] theorem dropPins_grant (s : State) : s.dropPins.grant = s.grant := rfl
@[simp] theorem dropPins_draws (s : State) : s.dropPins.draws = s.draws := rfl

@[simp] theorem dropTurn_h (s : State) : s.dropTurn.h = s.h := by
  unfold State.dropTurn; split <;> simp_all
@[simp] theorem dropTurn_L (s : State) : s.dropTurn.L = s.L := by
  unfold State.dropTurn; split <;> simp_all
@[simp] theorem dropTurn_R (s : State) : s.dropTurn.R = s.R := by
  unfold State.dropTurn; split <;> simp_all
@[simp] theorem dropTurn_X (s : State) : s.dropTurn.X = s.X := by
  unfold State.dropTurn; split <;> simp_all
@[simp] theorem dropTurn_wcnt (s : State) : s.dropTurn.wcnt = s.wcnt := by
  unfold State.dropTurn; split <;> simp_all
@[simp] theorem dropTurn_phase (s : State) : s.dropTurn.phase = s.phase := by
  unfold State.dropTurn; split <;> simp_all
@[simp] theorem dropTurn_jL (s : State) : s.dropTurn.jL = s.jL := by
  unfold State.dropTurn; split <;> simp_all
@[simp] theorem dropTurn_jR (s : State) : s.dropTurn.jR = s.jR := by
  unfold State.dropTurn; split <;> simp_all
@[simp] theorem dropTurn_EBS (s : State) : s.dropTurn.EBS = s.EBS := by
  unfold State.dropTurn; split <;> simp_all
@[simp] theorem dropTurn_ERI (s : State) : s.dropTurn.ERI = s.ERI := by
  unfold State.dropTurn; split <;> simp_all
@[simp] theorem dropTurn_rom (s : State) : s.dropTurn.rom = s.rom := by
  unfold State.dropTurn; split <;> simp_all
@[simp] theorem dropTurn_pins (s : State) : s.dropTurn.pins = s.pins := by
  unfold State.dropTurn; split <;> simp_all
@[simp] theorem dropTurn_sched (s : State) : s.dropTurn.sched = s.sched.tail := by
  unfold State.dropTurn; split <;> simp_all
@[simp] theorem dropTurn_grant (s : State) : s.dropTurn.grant = s.grant := by
  unfold State.dropTurn; split <;> simp_all

@[simp] theorem setLine_left_h (s : State) (t : LineRegs) (j : BitVec 7) : (s.setLine .left t j).h = s.h := rfl
@[simp] theorem setLine_left_L (s : State) (t : LineRegs) (j : BitVec 7) : (s.setLine .left t j).L = t := rfl
@[simp] theorem setLine_left_R (s : State) (t : LineRegs) (j : BitVec 7) : (s.setLine .left t j).R = s.R := rfl
@[simp] theorem setLine_left_X (s : State) (t : LineRegs) (j : BitVec 7) : (s.setLine .left t j).X = s.X := rfl
@[simp] theorem setLine_left_wcnt (s : State) (t : LineRegs) (j : BitVec 7) : (s.setLine .left t j).wcnt = s.wcnt := rfl
@[simp] theorem setLine_left_phase (s : State) (t : LineRegs) (j : BitVec 7) : (s.setLine .left t j).phase = s.phase := rfl
@[simp] theorem setLine_left_jL (s : State) (t : LineRegs) (j : BitVec 7) : (s.setLine .left t j).jL = j := rfl
@[simp] theorem setLine_left_jR (s : State) (t : LineRegs) (j : BitVec 7) : (s.setLine .left t j).jR = s.jR := rfl
@[simp] theorem setLine_left_EBS (s : State) (t : LineRegs) (j : BitVec 7) : (s.setLine .left t j).EBS = s.EBS := rfl
@[simp] theorem setLine_left_ERI (s : State) (t : LineRegs) (j : BitVec 7) : (s.setLine .left t j).ERI = s.ERI := rfl
@[simp] theorem setLine_left_rom (s : State) (t : LineRegs) (j : BitVec 7) : (s.setLine .left t j).rom = s.rom := rfl
@[simp] theorem setLine_left_pins (s : State) (t : LineRegs) (j : BitVec 7) : (s.setLine .left t j).pins = s.pins := rfl
@[simp] theorem setLine_left_sched (s : State) (t : LineRegs) (j : BitVec 7) : (s.setLine .left t j).sched = s.sched := rfl
@[simp] theorem setLine_left_grant (s : State) (t : LineRegs) (j : BitVec 7) : (s.setLine .left t j).grant = s.grant := rfl
@[simp] theorem setLine_left_draws (s : State) (t : LineRegs) (j : BitVec 7) : (s.setLine .left t j).draws = s.draws := rfl

@[simp] theorem setLine_right_h (s : State) (t : LineRegs) (j : BitVec 7) : (s.setLine .right t j).h = s.h := rfl
@[simp] theorem setLine_right_L (s : State) (t : LineRegs) (j : BitVec 7) : (s.setLine .right t j).L = s.L := rfl
@[simp] theorem setLine_right_R (s : State) (t : LineRegs) (j : BitVec 7) : (s.setLine .right t j).R = t := rfl
@[simp] theorem setLine_right_X (s : State) (t : LineRegs) (j : BitVec 7) : (s.setLine .right t j).X = s.X := rfl
@[simp] theorem setLine_right_wcnt (s : State) (t : LineRegs) (j : BitVec 7) : (s.setLine .right t j).wcnt = s.wcnt := rfl
@[simp] theorem setLine_right_phase (s : State) (t : LineRegs) (j : BitVec 7) : (s.setLine .right t j).phase = s.phase := rfl
@[simp] theorem setLine_right_jL (s : State) (t : LineRegs) (j : BitVec 7) : (s.setLine .right t j).jL = s.jL := rfl
@[simp] theorem setLine_right_jR (s : State) (t : LineRegs) (j : BitVec 7) : (s.setLine .right t j).jR = j := rfl
@[simp] theorem setLine_right_EBS (s : State) (t : LineRegs) (j : BitVec 7) : (s.setLine .right t j).EBS = s.EBS := rfl
@[simp] theorem setLine_right_ERI (s : State) (t : LineRegs) (j : BitVec 7) : (s.setLine .right t j).ERI = s.ERI := rfl
@[simp] theorem setLine_right_rom (s : State) (t : LineRegs) (j : BitVec 7) : (s.setLine .right t j).rom = s.rom := rfl
@[simp] theorem setLine_right_pins (s : State) (t : LineRegs) (j : BitVec 7) : (s.setLine .right t j).pins = s.pins := rfl
@[simp] theorem setLine_right_sched (s : State) (t : LineRegs) (j : BitVec 7) : (s.setLine .right t j).sched = s.sched := rfl
@[simp] theorem setLine_right_grant (s : State) (t : LineRegs) (j : BitVec 7) : (s.setLine .right t j).grant = s.grant := rfl
@[simp] theorem setLine_right_draws (s : State) (t : LineRegs) (j : BitVec 7) : (s.setLine .right t j).draws = s.draws := rfl

@[simp] theorem setLine_h (s : State) (l : Line) (t : LineRegs) (j : BitVec 7) : (s.setLine l t j).h = s.h := by
  cases l <;> rfl
@[simp] theorem setLine_X (s : State) (l : Line) (t : LineRegs) (j : BitVec 7) : (s.setLine l t j).X = s.X := by
  cases l <;> rfl
@[simp] theorem setLine_wcnt (s : State) (l : Line) (t : LineRegs) (j : BitVec 7) : (s.setLine l t j).wcnt = s.wcnt := by
  cases l <;> rfl
@[simp] theorem setLine_phase (s : State) (l : Line) (t : LineRegs) (j : BitVec 7) : (s.setLine l t j).phase = s.phase := by
  cases l <;> rfl
@[simp] theorem setLine_EBS (s : State) (l : Line) (t : LineRegs) (j : BitVec 7) : (s.setLine l t j).EBS = s.EBS := by
  cases l <;> rfl
@[simp] theorem setLine_ERI (s : State) (l : Line) (t : LineRegs) (j : BitVec 7) : (s.setLine l t j).ERI = s.ERI := by
  cases l <;> rfl
@[simp] theorem setLine_rom (s : State) (l : Line) (t : LineRegs) (j : BitVec 7) : (s.setLine l t j).rom = s.rom := by
  cases l <;> rfl
@[simp] theorem setLine_pins (s : State) (l : Line) (t : LineRegs) (j : BitVec 7) : (s.setLine l t j).pins = s.pins := by
  cases l <;> rfl
@[simp] theorem setLine_sched (s : State) (l : Line) (t : LineRegs) (j : BitVec 7) : (s.setLine l t j).sched = s.sched := by
  cases l <;> rfl
@[simp] theorem setLine_grant (s : State) (l : Line) (t : LineRegs) (j : BitVec 7) : (s.setLine l t j).grant = s.grant := by
  cases l <;> rfl
@[simp] theorem setLine_draws (s : State) (l : Line) (t : LineRegs) (j : BitVec 7) : (s.setLine l t j).draws = s.draws := by
  cases l <;> rfl

@[simp] theorem setLine_regs (s : State) (l : Line) (t : LineRegs) (j : BitVec 7) : (s.setLine l t j).regs l = t := by
  cases l <;> rfl
@[simp] theorem setLine_ctr (s : State) (l : Line) (t : LineRegs) (j : BitVec 7) : (s.setLine l t j).ctr l = j := by
  cases l <;> rfl
@[simp] theorem setLine_regs_other (s : State) (l : Line) (t : LineRegs) (j : BitVec 7) :
    (s.setLine l t j).regs (otherLine l) = s.regs (otherLine l) := by
  cases l <;> rfl
@[simp] theorem setLine_ctr_other (s : State) (l : Line) (t : LineRegs) (j : BitVec 7) :
    (s.setLine l t j).ctr (otherLine l) = s.ctr (otherLine l) := by
  cases l <;> rfl

@[simp] theorem regs_left (s : State) : s.regs .left = s.L := rfl
@[simp] theorem regs_right (s : State) : s.regs .right = s.R := rfl
@[simp] theorem ctr_left (s : State) : s.ctr .left = s.jL := rfl
@[simp] theorem ctr_right (s : State) : s.ctr .right = s.jR := rfl
@[simp] theorem otherLine_left : otherLine .left = .right := rfl
@[simp] theorem otherLine_right : otherLine .right = .left := rfl

end Sys2Proof.Machine
end

