-- ==== Sys2Proof/Laws/Ops.lean ====
section
/-! SUPPORT. For each shared operation, everything it can do: the lemmas that proofs about the instructions and about
the step cite instead of unfolding the operations. -/

namespace Sys2Proof.Machine

/-! Acceptance of a command. -/

theorem accept_idle {s : State} (h : s.phase = .idle) (e : State → State) : accept s e = .next (e s) := by
  simp [accept, h]

theorem accept_not_idle {s : State} (h : s.phase ≠ .idle) (e : State → State) : accept s e = .next s := by
  cases hp : s.phase <;> simp_all [accept]

/-! The block buffer. -/

theorem memRead_memWrite (s : State) (i : Fin 16) (v : Word) (j : BitVec 4) :
    memRead (memWrite s i v) j = if j.toNat = i.val then v else memRead s j := by
  simp only [memRead, memWrite_X, Vector.getElem_set]
  split <;> split <;> first | rfl | omega

theorem pushEffect_room {s : State} (h : s.wcnt.toNat ≤ 15) (d : Word) :
    pushEffect d s = { memWrite s ⟨s.wcnt.toNat, by omega⟩ d with wcnt := s.wcnt + 1 } := by
  simp [pushEffect, h]

theorem pushEffect_full {s : State} (h : ¬ s.wcnt.toNat ≤ 15) (d : Word) :
    pushEffect d s = { s with wcnt := 17 } := by
  simp [pushEffect, h]

theorem compressEffect_full {s : State} (h : s.wcnt = 16) : compressEffect s = seed s := by
  simp [compressEffect, h]

theorem compressEffect_not_full {s : State} (h : s.wcnt ≠ 16) : compressEffect s = raiseInvalidBlockSize s :=
  if_neg h

/-! A round. -/

theorem roundEnabled_lt {s : State} {l : Line} (h : s.roundEnabled l) : (s.ctr l).toNat < 80 := h.2.2

theorem not_roundEnabled_of_phase {s : State} {l : Line} (h : s.phase ≠ .run) : ¬ s.roundEnabled l :=
  fun e => h e.1

theorem runRound_enabled {s : State} (f : Word → Word → Word → Word) (r sh : BitVec 4)
    (h : s.roundEnabled s.grant) :
    runRound f r sh s = .next (s.setLine s.grant
      (roundStep (s.regs s.grant) f (memRead s r) (roundConstant s.grant ⟨(s.ctr s.grant).toNat, roundEnabled_lt h⟩) sh.toNat)
      (s.ctr s.grant + 1)) := by
  obtain ⟨hp, ho, hc⟩ := h
  simp only [State.overrun] at ho
  simp [runRound, hp, ho, hc]

theorem runRound_overrun {s : State} (f : Word → Word → Word → Word) (r sh : BitVec 4)
    (hp : s.phase = .run) (ho : s.overrun) : runRound f r sh s = .next (raiseInvalidRoundIndex s) := by
  simp only [State.overrun] at ho
  simp [runRound, hp, ho]

theorem runRound_disabled {s : State} (f : Word → Word → Word → Word) (r sh : BitVec 4)
    (h : ¬ s.roundEnabled s.grant) (ho : s.phase = .run → ¬ s.overrun) : runRound f r sh s = .next s := by
  cases hp : s.phase
  · simp [runRound, hp]
  · have ho := ho hp
    have hc : ¬ (s.ctr s.grant).toNat < 80 := fun hc => h ⟨hp, ho, hc⟩
    simp only [State.overrun] at ho
    simp [runRound, hp, ho, hc]
  · simp [runRound, hp]

/-- All that a round can do. -/
theorem runRound_cases (f : Word → Word → Word → Word) (r sh : BitVec 4) (s : State) :
    (∃ h : s.roundEnabled s.grant, runRound f r sh s = .next (s.setLine s.grant
      (roundStep (s.regs s.grant) f (memRead s r) (roundConstant s.grant ⟨(s.ctr s.grant).toNat, roundEnabled_lt h⟩) sh.toNat)
      (s.ctr s.grant + 1))) ∨
    (s.phase = .run ∧ s.overrun ∧ runRound f r sh s = .next (raiseInvalidRoundIndex s)) ∨
    (¬ s.roundEnabled s.grant ∧ (s.phase = .run → ¬ s.overrun) ∧ runRound f r sh s = .next s) := by
  by_cases h : s.roundEnabled s.grant
  · exact .inl ⟨h, runRound_enabled f r sh h⟩
  · by_cases ho : s.phase = .run ∧ s.overrun
    · exact .inr (.inl ⟨ho.1, ho.2, runRound_overrun f r sh ho.1 ho.2⟩)
    · have ho' : s.phase = .run → ¬ s.overrun := fun a b => ho ⟨a, b⟩
      exact .inr (.inr ⟨h, ho', runRound_disabled f r sh h ho'⟩)

/-! A control word. -/

/-- A packed control word with combinator number `n` decodes to the round with `F[n]`. -/
theorem exec_packCw (n : Fin 5) (r sh : BitVec 4) :
    ∃ i, decodeCw (packCw (BitVec.ofNat 3 n.val) r sh) = .ok i ∧
      ∀ s, exec i s = runRound (combinator n) r sh s := by
  match n with
  | 0 => exact ⟨.rndF0 r sh, by simp [decodeCw], fun s => rfl⟩
  | 1 => exact ⟨.rndF1 r sh, by simp [decodeCw], fun s => rfl⟩
  | 2 => exact ⟨.rndF2 r sh, by simp [decodeCw], fun s => rfl⟩
  | 3 => exact ⟨.rndF3 r sh, by simp [decodeCw], fun s => rfl⟩
  | 4 => exact ⟨.rndF4 r sh, by simp [decodeCw], fun s => rfl⟩

/-- The selector the ROM holds is the number of R97's combinator. -/
theorem roundFsel_eq (l : Line) (j : Fin 80) : roundFsel l j = BitVec.ofNat 3 (lineCombinator l j).val := by
  have h : ∀ k : Fin 80, roundFsel .right k = BitVec.ofNat 3 (lineCombinator .right k).val := by decide
  cases l
  · rfl
  · exact h j

/-- A control word of the packed ROM decodes, and its instruction is the round that R97 has at that line and round. -/
theorem exec_controlWord (t : Tables) (l : Line) (j : Fin 80) :
    ∃ i, decodeCw (controlWord t l j) = .ok i ∧
      ∀ s, exec i s = runRound (combinator (lineCombinator l j)) (messageIndex t l j) (rotationAmount t l j) s := by
  unfold controlWord
  rw [roundFsel_eq]
  exact exec_packCw _ _ _

/-- What an instruction that decodes from a control word does is a round with some combinator. -/
theorem exec_decodeCw {w : BitVec 11} {i : Instr} (h : decodeCw w = .ok i) :
    ∃ n : Fin 5, (cwFsel w).toNat = n.val ∧ ∀ s, exec i s = runRound (combinator n) (cwR w) (cwS w) s := by
  unfold decodeCw at h
  split_ifs at h with h0 h1 h2 h3 h4
  · cases h; exact ⟨0, by simp [h0], fun s => rfl⟩
  · cases h; exact ⟨1, by simp [h1], fun s => rfl⟩
  · cases h; exact ⟨2, by simp [h2], fun s => rfl⟩
  · cases h; exact ⟨3, by simp [h3], fun s => rfl⟩
  · cases h; exact ⟨4, by simp [h4], fun s => rfl⟩

/-! The sequencer. -/

theorem issueRound_not_run {l : Line} {s : State} (h : s.phase ≠ .run) : issueRound l s = .next s := by
  cases hp : s.phase <;> simp_all [issueRound]

theorem issueRound_ok {l : Line} {s : State} (h : s.roundEnabled l) {i : Instr}
    (hi : decodeCw (romRead s.rom l ⟨(s.ctr l).toNat, roundEnabled_lt h⟩) = .ok i) :
    issueRound l s = exec i { s with grant := l } := by
  obtain ⟨hp, ho, hc⟩ := h
  simp only [State.overrun] at ho
  unfold issueRound
  rw [hp]
  simp only [ho, if_false, hc, dif_pos, hi]

theorem issueRound_reserved {l : Line} {s : State} (h : s.roundEnabled l) {e : DecodeReject}
    (he : decodeCw (romRead s.rom l ⟨(s.ctr l).toNat, roundEnabled_lt h⟩) = .error e) :
    issueRound l s = .next (raiseInvalidRoundIndex s) := by
  obtain ⟨hp, ho, hc⟩ := h
  simp only [State.overrun] at ho
  unfold issueRound
  rw [hp]
  simp only [ho, if_false, hc, dif_pos, he]

theorem issueRound_overrun {l : Line} {s : State} (hp : s.phase = .run) (ho : s.overrun) :
    issueRound l s = .next (raiseInvalidRoundIndex s) := by
  simp only [State.overrun] at ho
  simp [issueRound, hp, ho]

theorem issueRound_disabled {l : Line} {s : State} (h : ¬ s.roundEnabled l) (ho : s.phase = .run → ¬ s.overrun) :
    issueRound l s = .next s := by
  cases hp : s.phase
  · simp [issueRound, hp]
  · have ho := ho hp
    have hc : ¬ (s.ctr l).toNat < 80 := fun hc => h ⟨hp, ho, hc⟩
    simp only [State.overrun] at ho
    simp [issueRound, hp, ho, hc]
  · simp [issueRound, hp]

/-- With the ROM packed from TABLES, an enabled round of a line is R97's round. -/
theorem issueRound_packed {t : Tables} {l : Line} {s : State} (hr : s.rom = packRom t) (h : s.roundEnabled l) :
    issueRound l s = .next ({ s with grant := l }.setLine l
      (lineRound t l s.X ⟨(s.ctr l).toNat, roundEnabled_lt h⟩ (s.regs l)) (s.ctr l + 1)) := by
  obtain ⟨i, hi, hx⟩ := exec_controlWord t l ⟨(s.ctr l).toNat, roundEnabled_lt h⟩
  rw [issueRound_ok h (by rw [hr, romRead_packRom]; exact hi), hx]
  have he : State.roundEnabled { s with grant := l } l := h
  rw [runRound_enabled _ _ _ he]
  cases l <;> rfl

theorem ctr_succ_toNat {b : BitVec 7} (h : b.toNat < 80) : (b + 1).toNat = b.toNat + 1 := by
  rw [BitVec.toNat_add]
  simp
  omega

/-- A round of one line leaves the other line's round enabled (R92). -/
theorem roundEnabled_other {s : State} {l : Line} (h : s.roundEnabled l) (ho : s.roundEnabled (otherLine l))
    (t : LineRegs) : ({ s with grant := l }.setLine l t (s.ctr l + 1)).roundEnabled (otherLine l) := by
  obtain ⟨hp, hn, hc⟩ := h
  obtain ⟨-, -, hc'⟩ := ho
  have hs := ctr_succ_toNat hc
  cases l
  · refine ⟨hp, ?_, hc'⟩
    show ¬ (80 < (s.jL + 1).toNat ∨ 80 < s.jR.toNat)
    simp only [ctr_left, ctr_right, otherLine_left] at hs hc hc'
    omega
  · refine ⟨hp, ?_, hc'⟩
    show ¬ (80 < s.jL.toNat ∨ 80 < (s.jR + 1).toNat)
    simp only [ctr_left, ctr_right, otherLine_right] at hs hc hc'
    omega

theorem microStep_overrun {s : State} (h : s.overrun) : microStep s = .next (raiseInvalidRoundIndex s) :=
  if_pos h

theorem microStep_joined {s : State} (hl : s.jL = 80) (hr : s.jR = 80) : microStep s = .next (combine s) := by
  simp [microStep, hl, hr]

theorem ne_eighty {b : BitVec 7} (h : b.toNat < 80) : b ≠ 80 := by
  rintro rfl
  simp at h

theorem microStep_left {s : State} (hl : s.jL.toNat < 80) (hr : s.jR = 80) : microStep s = issueRound .left s := by
  unfold microStep
  rw [if_neg (by simp [hr]; omega), if_neg (fun h => ne_eighty hl h.1), if_pos hr]

theorem microStep_right {s : State} (hl : s.jL = 80) (hr : s.jR.toNat < 80) : microStep s = issueRound .right s := by
  unfold microStep
  rw [if_neg (by simp [hl]; omega), if_neg (fun h => ne_eighty hr h.2), if_neg (ne_eighty hr), if_pos hl]

theorem microStep_both {s : State} (hl : s.jL.toNat < 80) (hr : s.jR.toNat < 80) :
    microStep s = issueTurn s.turn s.dropTurn := by
  unfold microStep
  rw [if_neg (by omega), if_neg (fun h => ne_eighty hl h.1), if_neg (ne_eighty hr), if_neg (ne_eighty hl)]

/-- R58: the cases of a micro-operation, mutually exclusive. -/
theorem counters_cases (s : State) :
    s.overrun ∨ (s.jL = 80 ∧ s.jR = 80) ∨ (s.jL.toNat < 80 ∧ s.jR = 80) ∨ (s.jL = 80 ∧ s.jR.toNat < 80) ∨
      (s.jL.toNat < 80 ∧ s.jR.toNat < 80) := by
  have e : ∀ b : BitVec 7, b.toNat = 80 → b = 80 := fun b h => BitVec.eq_of_toNat_eq (by simpa using h)
  unfold State.overrun
  rcases Nat.lt_trichotomy s.jL.toNat 80 with hl | hl | hl <;>
    rcases Nat.lt_trichotomy s.jR.toNat 80 with hr | hr | hr <;> simp_all

theorem issueTurn_one (l : Line) (s : State) : issueTurn (.one l) s = issueRound l s := rfl

theorem issueTurn_both {l : Line} {s s' : State} (h : issueRound l s = .next s') :
    issueTurn (.both l) s = issueRound (otherLine l) s' := by
  simp [issueTurn, h]

/-! The transition. -/

theorem step_reset {s : State} (h : s.nextPins.rst = true) : step s = .next (resetTransition s.dropPins) := by
  simp [step, transition, h]

theorem step_idle {s : State} (h : s.nextPins.rst = false) (hp : s.phase = .idle) :
    step s = exec (decodeCmd s.nextPins.cmd) s.dropPins := by
  simp [step, transition, h, hp]

theorem step_run {s : State} (h : s.nextPins.rst = false) (hp : s.phase = .run) :
    step s = microStep s.dropPins := by
  simp [step, transition, h, hp]

theorem step_halt {s : State} (h : s.nextPins.rst = false) (hp : s.phase = .halt) :
    step s = .next s.dropPins := by
  simp [step, transition, h, hp]

/-- All that a round of a line can do, whatever the schedule ROM holds: the round with some combinator and operands,
the entry of InvalidRoundIndex, or nothing. -/
theorem issueRound_cases (l : Line) (s : State) :
    (∃ (h : s.roundEnabled l) (n : Fin 5) (r sh : BitVec 4), issueRound l s = .next ({ s with grant := l }.setLine l
      (roundStep (s.regs l) (combinator n) (memRead s r) (roundConstant l ⟨(s.ctr l).toNat, roundEnabled_lt h⟩) sh.toNat)
      (s.ctr l + 1))) ∨
    (s.phase = .run ∧ issueRound l s = .next (raiseInvalidRoundIndex s)) ∨
    (¬ s.roundEnabled l ∧ issueRound l s = .next s) := by
  by_cases h : s.roundEnabled l
  · cases hd : decodeCw (romRead s.rom l ⟨(s.ctr l).toNat, roundEnabled_lt h⟩) with
    | ok i =>
      obtain ⟨n, -, hx⟩ := exec_decodeCw hd
      refine .inl ⟨h, n, cwR (romRead s.rom l ⟨(s.ctr l).toNat, roundEnabled_lt h⟩),
        cwS (romRead s.rom l ⟨(s.ctr l).toNat, roundEnabled_lt h⟩), ?_⟩
      rw [issueRound_ok h hd, hx]
      have he : State.roundEnabled { s with grant := l } l := h
      rw [runRound_enabled _ _ _ he]
      cases l <;> rfl
    | error e => exact .inr (.inl ⟨h.1, issueRound_reserved h hd⟩)
  · by_cases ho : s.phase = .run ∧ s.overrun
    · exact .inr (.inl ⟨ho.1, issueRound_overrun ho.1 ho.2⟩)
    · exact .inr (.inr ⟨h, issueRound_disabled h fun a b => ho ⟨a, b⟩⟩)

/-- What a command word is (R48). -/
theorem decodeCmd_cases (w : BitVec 34) :
    (cmdOp w = 0 ∧ decodeCmd w = .nop (cmdData w)) ∨ (cmdOp w = 1 ∧ decodeCmd w = .init (cmdData w)) ∨
    (cmdOp w = 2 ∧ decodeCmd w = .push (cmdData w)) ∨ (cmdOp w = 3 ∧ decodeCmd w = .compress (cmdData w)) := by
  have key : ∀ b : BitVec 2, b = 0 ∨ b = 1 ∨ b = 2 ∨ b = 3 := by decide
  rcases key (cmdOp w) with h | h | h | h <;> simp [decodeCmd, h]

/-- All that one choice of the sequencer in RUN can lead to, the counters in range and not both at 80: one round, or
two rounds of different lines. -/
def roundsTo (s s' : State) : Prop :=
  ∃ l, issueRound l s = .next s' ∨ ∃ m, issueRound l s = .next m ∧ issueRound (otherLine l) m = .next s'

theorem issueTurn_roundsTo {u : Turn} {s s' : State} (h : issueTurn u s = .next s') : roundsTo s s' := by
  cases u with
  | one l => exact ⟨l, .inl h⟩
  | both l =>
    refine ⟨l, .inr ?_⟩
    rcases issueRound_cases l s with ⟨_, n, r, sh, he⟩ | ⟨_, he⟩ | ⟨_, he⟩ <;>
      exact ⟨_, he, by rwa [issueTurn_both he] at h⟩

/-- All that a transition in RUN can do. -/
theorem microStep_cases {s s' : State} (h : microStep s = .next s') :
    (s.overrun ∧ s' = raiseInvalidRoundIndex s) ∨ (s.jL = 80 ∧ s.jR = 80 ∧ s' = combine s) ∨
    (¬ s.overrun ∧ ¬ (s.jL = 80 ∧ s.jR = 80) ∧ (roundsTo s s' ∨ roundsTo s.dropTurn s')) := by
  have e80 : ¬ 80 < (80#7).toNat := by decide
  rcases counters_cases s with ho | ⟨hl, hr⟩ | ⟨hl, hr⟩ | ⟨hl, hr⟩ | ⟨hl, hr⟩
  · rw [microStep_overrun ho] at h
    exact .inl ⟨ho, (Host.Outcome.next.inj h).symm⟩
  · rw [microStep_joined hl hr] at h
    exact .inr (.inl ⟨hl, hr, (Host.Outcome.next.inj h).symm⟩)
  · rw [microStep_left hl hr] at h
    refine .inr (.inr ⟨?_, fun k => ne_eighty hl k.1, .inl ⟨.left, .inl h⟩⟩)
    simp only [State.overrun, hr]
    rintro (k | k) <;> first | omega | exact e80 k
  · rw [microStep_right hl hr] at h
    refine .inr (.inr ⟨?_, fun k => ne_eighty hr k.2, .inl ⟨.right, .inl h⟩⟩)
    simp only [State.overrun, hl]
    rintro (k | k) <;> first | omega | exact e80 k
  · rw [microStep_both hl hr] at h
    refine .inr (.inr ⟨?_, fun k => ne_eighty hl k.1, .inr (issueTurn_roundsTo h)⟩)
    simp only [State.overrun]
    omega

/-- All that a step can do. -/
theorem step_cases {s s' : State} (h : step s = .next s') :
    (s.nextPins.rst = true ∧ s' = resetTransition s.dropPins) ∨
    (s.nextPins.rst = false ∧ s.phase = .idle ∧ cmdOp s.nextPins.cmd = 0 ∧ s' = s.dropPins) ∨
    (s.nextPins.rst = false ∧ s.phase = .idle ∧ cmdOp s.nextPins.cmd = 1 ∧ s' = initEffect s.dropPins) ∨
    (s.nextPins.rst = false ∧ s.phase = .idle ∧ cmdOp s.nextPins.cmd = 2 ∧
      s' = pushEffect (cmdData s.nextPins.cmd) s.dropPins) ∨
    (s.nextPins.rst = false ∧ s.phase = .idle ∧ cmdOp s.nextPins.cmd = 3 ∧ s' = compressEffect s.dropPins) ∨
    (s.nextPins.rst = false ∧ s.phase = .run ∧ microStep s.dropPins = .next s') ∨
    (s.nextPins.rst = false ∧ s.phase = .halt ∧ s' = s.dropPins) := by
  cases hr : s.nextPins.rst with
  | true =>
    rw [step_reset hr] at h
    exact .inl ⟨rfl, (Host.Outcome.next.inj h).symm⟩
  | false =>
    cases hp : s.phase with
    | idle =>
      rw [step_idle hr hp] at h
      have hp' : s.dropPins.phase = .idle := hp
      rcases decodeCmd_cases s.nextPins.cmd with ⟨ho, hd⟩ | ⟨ho, hd⟩ | ⟨ho, hd⟩ | ⟨ho, hd⟩ <;>
        simp_all [exec, execNop, execInit, execPush, execCompress, accept_idle hp']
    | run => rw [step_run hr hp] at h; simp [h]
    | halt =>
      rw [step_halt hr hp] at h
      simp [(Host.Outcome.next.inj h).symm]

/-! The function of R97. -/

theorem lineAfter_succ (t : Tables) (l : Line) (X : Vector Word 16) (h : StateWords) {n : Nat} (hn : n < 80) :
    lineAfter t l X h (n + 1) = lineRound t l X ⟨n, hn⟩ (lineAfter t l X h n) := by
  simp [lineAfter, hn]

end Sys2Proof.Machine
end

