-- ==== Sys2Proof/Laws/PerInstr.lean ====
section
/-! SUPPORT. The opcode table's `match` and `mask` hold of the word of every instruction: one lemma per constructor. -/

namespace Sys2Proof.Laws.TableMatch

/-- The mask and the match of an instruction's row of the opcode table. -/
def row : Instr → Nat × Nat
  | .nop _ => (0x300000000, 0x000000000)
  | .init _ => (0x300000000, 0x100000000)
  | .push _ => (0x300000000, 0x200000000)
  | .compress _ => (0x300000000, 0x300000000)
  | .rndF0 _ _ => (0x700, 0x000)
  | .rndF1 _ _ => (0x700, 0x100)
  | .rndF2 _ _ => (0x700, 0x200)
  | .rndF3 _ _ => (0x700, 0x300)
  | .rndF4 _ _ => (0x700, 0x400)

/-- The instruction's word, masked, is the row's match. -/
def Statement (i : Instr) : Prop :=
  match encode i with
  | .cmd w => w &&& BitVec.ofNat 34 (row i).1 = BitVec.ofNat 34 (row i).2
  | .cw w => w &&& BitVec.ofNat 11 (row i).1 = BitVec.ofNat 11 (row i).2

/-- The mask of format CMD keeps exactly the selector. -/
theorem cmd_masked (op : BitVec 2) (d : Word) :
    packCmd op d &&& BitVec.ofNat 34 0x300000000 = packCmd op 0 := by
  have mask : BitVec.ofNat 34 0x300000000 = ((3 : BitVec 2) ++ (0 : Word) : BitVec (2 + 32)) := by decide
  rw [mask]
  show ((op ++ d : BitVec (2 + 32)) &&& ((3 : BitVec 2) ++ (0 : Word))) = (op ++ (0 : Word) : BitVec (2 + 32))
  rw [BitVec.and_append]
  rw [show op &&& 3 = op from (by decide : ∀ b : BitVec 2, b &&& 3 = b) op, show d &&& 0 = 0 from BitVec.and_zero]

/-- The mask of format CW keeps exactly the selector. -/
theorem cw_masked (f : BitVec 3) (r s : BitVec 4) :
    packCw f r s &&& BitVec.ofNat 11 0x700 = packCw f 0 0 := by
  have mask : BitVec.ofNat 11 0x700 = (((7 : BitVec 3) ++ (0 : BitVec 4)) ++ (0 : BitVec 4) : BitVec (3 + 4 + 4)) := by
    decide
  rw [mask]
  show (((f ++ r) ++ s : BitVec (3 + 4 + 4)) &&& (((7 : BitVec 3) ++ (0 : BitVec 4)) ++ (0 : BitVec 4))) =
    ((f ++ (0 : BitVec 4)) ++ (0 : BitVec 4) : BitVec (3 + 4 + 4))
  rw [BitVec.and_append, BitVec.and_append]
  rw [show f &&& 7 = f from (by decide : ∀ b : BitVec 3, b &&& 7 = b) f,
    show r &&& 0 = 0 from BitVec.and_zero, show s &&& 0 = 0 from BitVec.and_zero]

theorem nop (data : Word) : Statement (.nop data) :=
  (cmd_masked 0 data).trans (by decide : packCmd 0 0 = BitVec.ofNat 34 0x000000000)
theorem init (data : Word) : Statement (.init data) :=
  (cmd_masked 1 data).trans (by decide : packCmd 1 0 = BitVec.ofNat 34 0x100000000)
theorem push (d : Word) : Statement (.push d) :=
  (cmd_masked 2 d).trans (by decide : packCmd 2 0 = BitVec.ofNat 34 0x200000000)
theorem compress (data : Word) : Statement (.compress data) :=
  (cmd_masked 3 data).trans (by decide : packCmd 3 0 = BitVec.ofNat 34 0x300000000)
theorem rndF0 (r s : BitVec 4) : Statement (.rndF0 r s) :=
  (cw_masked 0 r s).trans (by decide : packCw 0 0 0 = BitVec.ofNat 11 0x000)
theorem rndF1 (r s : BitVec 4) : Statement (.rndF1 r s) :=
  (cw_masked 1 r s).trans (by decide : packCw 1 0 0 = BitVec.ofNat 11 0x100)
theorem rndF2 (r s : BitVec 4) : Statement (.rndF2 r s) :=
  (cw_masked 2 r s).trans (by decide : packCw 2 0 0 = BitVec.ofNat 11 0x200)
theorem rndF3 (r s : BitVec 4) : Statement (.rndF3 r s) :=
  (cw_masked 3 r s).trans (by decide : packCw 3 0 0 = BitVec.ofNat 11 0x300)
theorem rndF4 (r s : BitVec 4) : Statement (.rndF4 r s) :=
  (cw_masked 4 r s).trans (by decide : packCw 4 0 0 = BitVec.ofNat 11 0x400)

end Sys2Proof.Laws.TableMatch
end

