-- ==== Sys2Proof/Laws/Run.lean ====
section
/-! SUPPORT. Runs of several steps. -/

namespace Sys2Proof.Machine

theorem steps_succ {n : Nat} {s s' : State} (h : step s = .next s') : steps (n + 1) s = steps n s' := by
  simp [steps, h]

theorem steps_add {m : Nat} : ∀ {n : Nat} {s s' : State}, steps n s = .next s' → steps (n + m) s = steps m s'
  | 0, s, s', h => by
    cases h
    simp
  | n + 1, s, s', h => by
    cases hs : step s with
    | next u =>
      rw [steps_succ hs] at h
      rw [show n + 1 + m = (n + m) + 1 by omega, steps_succ hs]
      exact steps_add h
    | fault f => simp [steps, hs] at h
    | refused f => simp [steps, hs] at h

theorem run_succ_next (M : Host.Core) {n : Nat} {s s' : M.State} (h : M.step s = .next s') :
    M.run (n + 1) s = M.run n s' := by
  simp [Host.Core.run, h]

theorem run_succ_fault (M : Host.Core) {n : Nat} {s : M.State} {f : M.Fault} (h : M.step s = .fault f) :
    M.run (n + 1) s = .fault f := by
  simp [Host.Core.run, h]

theorem run_succ_refused (M : Host.Core) {n : Nat} {s : M.State} {f : M.Refusal} (h : M.step s = .refused f) :
    M.run (n + 1) s = .refused f := by
  simp [Host.Core.run, h]

/-- The host's runs of the machine are `steps`. -/
theorem core_run_eq_steps : ∀ (n : Nat) (s : State), Host.Core.run Sys2Proof.core n s = steps n s
  | 0, _ => rfl
  | n + 1, s => by
    unfold steps
    cases hs : step s with
    | next u => exact (run_succ_next Sys2Proof.core hs).trans (core_run_eq_steps n u)
    | fault f => exact run_succ_fault Sys2Proof.core hs
    | refused f => exact run_succ_refused Sys2Proof.core hs

end Sys2Proof.Machine
end

