-- ==== Sys2Proof/Tests/Slice0.lean ====
section
/-! SUPPORT. Tests of single steps and tables, with results taken from the spec (the vectors V<n> and E<n> of
95_test_vectors.md and the examples of the rules), and one witness for the hypotheses of every statement that has
some. -/

namespace Sys2Proof.Tests

open Sys2Proof Sys2Proof.Machine

/-! Helpers. -/

/-- The next state, where there is one. -/
def nextOf : Outcome → Option State
  | .next s => some s
  | .fault _ => none
  | .refused _ => none

/-- The state words after E1. -/
def hE1 : StateWords := ⟨0xA585119C, 0x54FCE9C5, 0x97082861, 0x48F5E87E, 0x318D25B2⟩

/-- The block of E1. -/
def blockE1 : Vector Word 16 := #v[0x80, 0, 0, 0, 0, 0, 0, 0, 0, 0, 0, 0, 0, 0, 0, 0]

/-- The initial constants as a line's registers. -/
def regsIV : LineRegs := ⟨0x67452301, 0xEFCDAB89, 0x98BADCFE, 0x10325476, 0xC3D2E1F0⟩

/-- In IDLE with the block of E1 and `n` words counted. -/
def idleAt (n : BitVec 5) : State := { State.reset with X := blockE1, wcnt := n }

/-- In RUN over the block of E1, both lines at the initial constants, with given counters. -/
def runAt (jl jr : BitVec 7) : State :=
  { State.reset with X := blockE1, wcnt := 16, phase := .run, L := regsIV, R := regsIV, jL := jl, jR := jr }

/-- In HALT, both flags set. -/
def halted : State := { State.reset with wcnt := 16, phase := .halt, EBS := true, ERI := true }

/-- With a command word on the port at the next edge. -/
def driven (s : State) (w : BitVec 34) : State := { s with pins := [⟨false, w⟩] }

/-- With RST and a command word on the port at the next edge. -/
def resetting (s : State) (w : BitVec 34) : State := { s with pins := [⟨true, w⟩] }

/-- A state of RUN that meets the invariant, with given counters. -/
def midRun (jl jr : BitVec 7) : State :=
  { runAt jl jr with
    rom := packRom suppliedTables
    L := lineAfter suppliedTables .left blockE1 initialConstants jl.toNat
    R := lineAfter suppliedTables .right blockE1 initialConstants jr.toNat }

theorem midRun_inv {jl jr : BitVec 7} (hl : jl.toNat ≤ 80) (hr : jr.toNat ≤ 80) :
    (midRun jl jr).Inv suppliedTables :=
  ⟨rfl, ⟨rfl, by simp [midRun, runAt]⟩, by simp [midRun, runAt], fun _ => ⟨rfl, hl, hr, rfl, rfl⟩⟩

/-- In IDLE with the packed ROM and `n` words counted. -/
def packedIdle (n : BitVec 5) : State := { idleAt n with rom := packRom suppliedTables }

theorem packedIdle_inv {n : BitVec 5} (h : n.toNat ≤ 17) : (packedIdle n).Inv suppliedTables :=
  ⟨rfl, ⟨rfl, by simp [packedIdle, idleAt, State.reset]⟩, h, fun h => by cases h⟩

/-- Tables whose 80 entries are one value. -/
def constantTable (b : BitVec 4) : Vector (BitVec 4) 80 := Vector.replicate 80 b

/-! Well-formedness: what each check refuses. -/

theorem test_band_not_permutation_left :
    Tables.wf { suppliedTables with msgLeft := suppliedTables.msgLeft.set 0 1 } = false := by decide +kernel

theorem test_band_not_permutation_right :
    Tables.wf { suppliedTables with msgRight := suppliedTables.msgRight.set 79 12 } = false := by decide +kernel

theorem test_amount_too_small_left :
    Tables.wf { suppliedTables with rotLeft := suppliedTables.rotLeft.set 79 4 } = false := by decide +kernel

theorem test_amount_too_small_right :
    Tables.wf { suppliedTables with rotRight := suppliedTables.rotRight.set 0 0 } = false := by decide +kernel

/-- The amount 10, which R85 excludes. -/
theorem test_amount_ten_left :
    Tables.wf { suppliedTables with rotLeft := suppliedTables.rotLeft.set 0 10 } = false := by decide +kernel

theorem test_amount_ten_right :
    Tables.wf { suppliedTables with rotRight := suppliedTables.rotRight.set 79 10 } = false := by decide +kernel

/-- Left band 0 with two entries exchanged: a permutation, and not the identity. -/
theorem test_left_band_not_identity :
    bandsArePermutations ((suppliedTables.msgLeft.set 0 1).set 1 0) = true ∧
      bandsAreDistinct ((suppliedTables.msgLeft.set 0 1).set 1 0) suppliedTables.msgRight = true ∧
      Tables.wf { suppliedTables with msgLeft := (suppliedTables.msgLeft.set 0 1).set 1 0 } = false := by decide +kernel

/-- The left line's indices on both lines: permutations, and band by band equal. -/
theorem test_bands_not_distinct :
    bandsAreDistinct suppliedTables.msgLeft suppliedTables.msgLeft = false ∧
      Tables.wf { suppliedTables with msgRight := suppliedTables.msgLeft } = false := by decide +kernel

theorem test_rom_reserved_left : Rom.wf { romImage with left := romImage.left.set 0 0x500 } = false := by decide +kernel

theorem test_rom_reserved_right : Rom.wf { romImage with right := romImage.right.set 79 0x7FF } = false := by
  decide +kernel

theorem test_constant_table_refused : bandsArePermutations (constantTable 5) = false := by decide +kernel

theorem test_supplied_well_formed : suppliedTables.wf = true ∧ romImage.wf = true := by decide +kernel

/-! Decoding: words written out bit by bit from R47, R48 (op, data) and R52, R53 (fsel, r, s). -/

theorem test_decode_nop : decodeTableWord 40 0b00_11111111111111111111111111111111 = some (.nop 0xFFFFFFFF) := by decide
theorem test_decode_init : decodeTableWord 40 0b01_11011110101011011011111011101111 = some (.init 0xDEADBEEF) := by decide
theorem test_decode_push : decodeTableWord 40 0b10_00000000000000000000000010000000 = some (.push 0x80) := by decide
theorem test_decode_compress : decodeTableWord 40 0b11_00000000000000000000000000000000 = some (.compress 0) := by decide
theorem test_decode_rndF0 : decodeTableWord 16 0b000_0000_1011 = some (.rndF0 0 11) := by decide
theorem test_decode_rndF1 : decodeTableWord 16 0b001_0001_1101 = some (.rndF1 1 13) := by decide
theorem test_decode_rndF2 : decodeTableWord 16 0b010_1100_0101 = some (.rndF2 12 5) := by decide
theorem test_decode_rndF3 : decodeTableWord 16 0b011_0110_1001 = some (.rndF3 6 9) := by decide
theorem test_decode_rndF4 : decodeTableWord 16 0b100_0101_1000 = some (.rndF4 5 8) := by decide

/-- R53: the reserved selectors; and a number wider than its format is no word. -/
theorem test_decode_rejects :
    decodeCw 0b101_0000_0000 = .error (.reservedFsel 5) ∧ decodeCw 0b110_1111_0000 = .error (.reservedFsel 6) ∧
      decodeCw 0b111_1111_1111 = .error (.reservedFsel 7) ∧ decodeTableWord 16 0x500 = none ∧
      decodeTableWord 16 0x800 = none ∧ decodeTableWord 40 0x400000000 = none := by decide

theorem test_encode_words :
    encode (.init 0xDEADBEEF) = .cmd 0x1DEADBEEF ∧ encode (.push 0x80) = .cmd 0x200000080 ∧
      encode (.rndF1 1 13) = .cw 0x11D ∧ encode (.rndF4 5 8) = .cw 0x458 := by decide

/-! Words and combinators: V8 to V11. -/

theorem test_sums :
    (0xFFFFFFFF + 0x00000001 : Word) = 0 ∧ (0x67452301 + 0xEFCDAB89 + 0x98BADCFE + 0x10325476 : Word) = 0xFFFFFFFE := by
  decide

theorem test_rotl :
    rotl 0x80000000 1 = 0x00000001 ∧ rotl 0x00000001 31 = 0x80000000 ∧ rotl 0x12345678 10 = 0xD159E048 ∧
      rotl 0x12345678 15 = 0x2B3C091A ∧ rotl 0xFFFFFFFF 7 = 0xFFFFFFFF := by decide

theorem test_combinators :
    F0 0x12345678 0x9ABCDEF0 0x0FEDCBA9 = 0x87654321 ∧ F1 0x12345678 0x9ABCDEF0 0x0FEDCBA9 = 0x1FFDDFF1 ∧
      F2 0x12345678 0x9ABCDEF0 0x0FEDCBA9 = 0x789ABCD6 ∧ F3 0x12345678 0x9ABCDEF0 0x0FEDCBA9 = 0x92345678 ∧
      F4 0x12345678 0x9ABCDEF0 0x0FEDCBA9 = 0xE88AA88E := by decide

/-- V12: control words and constants at the ends of the bands. -/
theorem test_rom_words :
    romRead romImage .left 19 = 0x11D ∧ romRead romImage .left 79 = 0x4D6 ∧ romRead romImage .right 0 = 0x458 ∧
      romRead romImage .right 63 = 0x1E8 ∧ romRead romImage .right 79 = 0x0BB ∧
      roundConstant .left 48 = 0x8F1BBCDC ∧ roundConstant .right 0 = 0x50A28BE6 ∧ roundConstant .right 64 = 0 := by
  decide

/-! RoundStep and COMBINE: V13 and V14. -/

theorem test_roundStep_f1 :
    roundStep ⟨0xFFFFFFFF, 0xFFFFFFFF, 0xFFFFFFFF, 0xFFFFFFFF, 0xFFFFFFFF⟩ F1 0xFFFFFFFF 0xFFFFFFFF 15 =
      ⟨0xFFFFFFFF, 0xFFFE7FFE, 0xFFFFFFFF, 0xFFFFFFFF, 0xFFFFFFFF⟩ := by decide

theorem test_roundStep_f3 :
    roundStep ⟨1, 2, 3, 4, 5⟩ F3 6 7 9 = ⟨5, 0x00002205, 2, 0x00000C00, 4⟩ := by decide

theorem test_recombine_cross_pattern :
    recombine ⟨0, 0, 0, 0, 0⟩ ⟨0x10, 0x20, 0x30, 0x40, 0x50⟩ ⟨1, 2, 3, 4, 5⟩ =
      ⟨0x34, 0x45, 0x51, 0x12, 0x23⟩ := by decide

theorem test_recombine_e1 :
    recombine initialConstants ⟨0x594637A7, 0x215D97B3, 0xEBA027EB, 0xB99CDC7A, 0xEC4DCDFF⟩
      ⟨0x9A8805EC, 0x2BDCCEE7, 0xA8EA6AFE, 0xCA173E28, 0x02A5304D⟩ = hE1 := by decide

/-! The commands: V15 to V19. -/

theorem test_nop : (nextOf (step (driven (idleAt 5) 0x0FFFFFFFF))) = some (idleAt 5) := by decide +kernel

/-- V15, first row. -/
theorem test_init :
    nextOf (step (driven { idleAt 3 with h := hE1, EBS := true } 0x100000000)) = some (idleAt 0) := by decide +kernel

/-- V16: the first word goes to `X[0]`. -/
theorem test_push_first :
    (nextOf (step (driven State.reset 0x200000080))).map (fun s => (s.X[0], s.X[1], s.wcnt, s.EBS)) =
      some (0x80, 0, 1, false) := by decide

/-- V16: the last word of a block, and the 17th, which is discarded. -/
theorem test_push_last_and_over :
    (nextOf (exec (.push 0xFFFFFFFF) (idleAt 15))).map (fun s => (s.X[14], s.X[15], s.wcnt)) =
        some (0, 0xFFFFFFFF, 16) ∧
      nextOf (exec (.push 0x12345678) (idleAt 16)) = some (idleAt 17) := by decide +kernel

/-- V18: at acceptance. -/
theorem test_compress_seeds :
    nextOf (step (driven { idleAt 16 with jL := 7, jR := 80 } 0x300000000)) = some (runAt 0 0) := by decide +kernel

/-- V19: a short and a long block. -/
theorem test_compress_wrong_size :
    nextOf (exec (.compress 0) (idleAt 15)) = some { idleAt 0 with EBS := true } ∧
      nextOf (exec (.compress 0) { idleAt 17 with h := hE1 }) = some { idleAt 0 with h := hE1, EBS := true } ∧
      State.status { idleAt 0 with EBS := true } = 0x40 := by decide +kernel

/-! The control words. Expected registers: R89 and R90's examples and V13. -/

/-- R89's example: the left line's round 0, read from the ROM. -/
theorem test_rndF0_left :
    nextOf (issueRound .left (runAt 0 0)) =
      some { runAt 1 0 with L := ⟨0xC3D2E1F0, 0x1606F864, 0xEFCDAB89, 0xEB73FA62, 0x10325476⟩ } := by decide +kernel

/-- V13, row 5: every term at its largest; the block word is taken from `X[r]`. -/
theorem test_rndF1 :
    (nextOf (exec (.rndF1 15 15)
        { runAt 16 0 with
          L := ⟨0xFFFFFFFF, 0xFFFFFFFF, 0xFFFFFFFF, 0xFFFFFFFF, 0xFFFFFFFF⟩
          X := blockE1.set 15 (0xFFFFFFFF + 0xFFFFFFFF - 0x5A827999) })).map (fun s => (s.L, s.jL)) =
      some (⟨0xFFFFFFFF, 0xFFFE7FFE, 0xFFFFFFFF, 0xFFFFFFFF, 0xFFFFFFFF⟩, 17) := by decide +kernel

/-- V13, row 4: F2 of zero words is 0xFFFFFFFF (round 79 of the right line has the constant 0). -/
theorem test_rndF2 :
    (nextOf (exec (.rndF2 1 5) { runAt 80 79 with R := ⟨0, 0, 0, 0, 0⟩, grant := .right })).map
        (fun s => (s.R, s.jR, s.L, s.jL)) =
      some (⟨0, 0xFFFFFFFF, 0, 0, 0⟩, 80, regsIV, 80) := by decide +kernel

/-- V13, row 6: with the sum of block word and constant 6 + 7 (round 0 of the left line has the constant 0). -/
theorem test_rndF3 :
    (nextOf (exec (.rndF3 3 9) { runAt 0 80 with L := ⟨1, 2, 3, 4, 5⟩, X := blockE1.set 3 13 })).map
        (fun s => (s.L, s.jL)) =
      some (⟨5, 0x00002205, 2, 0x00000C00, 4⟩, 1) := by decide +kernel

/-- R90's example: the right line's round 0, read from the ROM. -/
theorem test_rndF4_right :
    nextOf (issueRound .right (runAt 0 0)) =
      some { runAt 0 1 with
        grant := .right, R := ⟨0xC3D2E1F0, 0xDDD63FB8, 0xEFCDAB89, 0xEB73FA62, 0x10325476⟩ } := by decide +kernel

/-! The sequencer: V25, V27 and V28. -/

/-- V25: a counter of 81. -/
theorem test_fault_step :
    nextOf (step (runAt 81 3)) = some { runAt 81 3 with phase := .halt, ERI := true } ∧
      State.status { runAt 81 3 with phase := .halt, ERI := true } = 0x90 := by decide +kernel

/-- V25: two counters of 80 are no fault. -/
theorem test_combine_step :
    (nextOf (step (runAt 80 80))).map (fun s => (s.phase, s.wcnt, s.ERI, s.jL, s.jR)) =
      some (.idle, 0, false, 80, 80) := by decide

/-- V25: the left line waits at the join. -/
theorem test_right_line_finishes :
    (nextOf (step (runAt 80 79))).map (fun s => (s.phase, s.jL, s.jR, s.L)) = some (.run, 80, 80, regsIV) := by
  decide +kernel

/-- R98: both rounds in one step, whichever is first: V12's traces, round 0. -/
theorem test_both_rounds :
    (nextOf (step { runAt 0 0 with sched := [.both .right] })).map (fun s => (s.L.B, s.R.B, s.jL, s.jR)) =
      some (0x1606F864, 0xDDD63FB8, 1, 1) := by decide +kernel

/-- R53, R102: a reserved selector read from the ROM halts the engine in place of the round. -/
theorem test_reserved_halts :
    nextOf (step { runAt 0 80 with rom := { romImage with left := romImage.left.set 0 0x5FF } }) =
      some { runAt 0 80 with
        rom := { romImage with left := romImage.left.set 0 0x5FF }, phase := .halt, ERI := true } := by
  decide +kernel

/-- V27: a command presented in RUN or in HALT is not accepted. -/
theorem test_not_accepted :
    nextOf (exec (.push 1) (runAt 40 12)) = some (runAt 40 12) ∧
      nextOf (exec (.init 0) (runAt 40 12)) = some (runAt 40 12) ∧
      nextOf (step (driven halted 0x100000000)) = some halted := by decide +kernel

/-- V28: reset in RUN. -/
theorem test_reset_in_run :
    (nextOf (step (resetting { runAt 40 12 with h := hE1 } 0))).map (fun s => (s.h, s.phase, s.jL, s.jR, s.wcnt)) =
      some (initialConstants, .idle, 0, 0, 0) := by decide

/-- V28: reset in HALT, and over a PUSH at the same edge. -/
theorem test_reset_wins :
    (nextOf (step (resetting halted 0))).map (fun s => (s.phase, s.EBS, s.ERI, s.status, s.ready)) =
        some (.idle, false, false, 0x00, true) ∧
      (nextOf (step (resetting (idleAt 7) 0x200000005))).map (fun s => (s.phase, s.wcnt)) = some (.idle, 0) := by
  decide

/-! Whole compressions: E1, V22 and V23. -/

theorem test_compress_e1 : compress suppliedTables initialConstants blockE1 = hE1 := by decide +kernel

theorem test_compress_v22 :
    compress suppliedTables ⟨0xFFFFFFFF, 0xFFFFFFFF, 0xFFFFFFFF, 0xFFFFFFFF, 0xFFFFFFFF⟩ (Vector.replicate 16 0xFFFFFFFF) =
      ⟨0xF282655D, 0xD3828CF1, 0x4FE5E0C5, 0xA3892B3E, 0xD14F6FCE⟩ := by decide +kernel

theorem test_compress_v23 :
    compress suppliedTables initialConstants
        (Vector.ofFn fun i : Fin 16 => 0x03020100 + BitVec.ofNat 32 i.val * 0x04040404) =
      ⟨0xD6E08676, 0xA2E0EABA, 0xC4A552B7, 0x3B94ADCB, 0x54768374⟩ := by decide +kernel

/-! Ports: V30. -/

theorem test_ports :
    State.reset.digest = 0xC3D2E1F01032547698BADCFEEFCDAB8967452301 ∧ (idleAt 16).status = 0x10 ∧
      (runAt 0 0).status = 0x30 ∧ (idleAt 17).status = 0x11 ∧ State.status { idleAt 9 with EBS := true } = 0x49 ∧
      halted.errorCode = 3 := by decide

/-! The placed word: the host's interface, on one row of each format. -/

theorem test_placed_words :
    (nextOf (step (State.reset.withFetchWord 40 0x200000080))).map (fun s => (s.X[0], s.wcnt)) = some (0x80, 1) ∧
      (nextOf (step (State.reset.withFetchWord 16 0x458))).map (fun s => (s.jL, s.phase, s.L.D)) =
        some (1, .run, 0) := by decide

/-! Witnesses: for each statement with hypotheses, a state and operands that meet all of them, each clause at the
ends of its range. -/

theorem test_witness_EncodingIsBijective :
    Instr.wf (.rndF4 15 0) = true ∧ decode (.cw 0x4F0) = .ok (.rndF4 15 0) ∧
      decode (.cmd 0x3FFFFFFFF) = .ok (.compress 0xFFFFFFFF) ∧ decode (.cw 0x500) = .error (.reservedFsel 5) ∧
      5 ≤ (cwFsel 0x500).toNat ∧ (cwFsel 0x4FF).toNat = 4 := by decide

theorem test_witness_RotationRule : (1 ≤ 1 ∧ 1 ≤ 31) ∧ (1 ≤ 31 ∧ 31 ≤ 31) ∧ 0 < 32 ∧ 31 < 32 := by decide

theorem test_witness_bit_numbers : 0 < 32 ∧ 31 < 32 ∧ combinator 4 = combinator 4 := ⟨by decide, by decide, rfl⟩

theorem test_witness_TableFacts :
    ∀ j : Fin 16, messageIndex suppliedTables Line.left ⟨16 * (0 : Fin 5).val + j.val, by omega⟩ =
      messageIndex suppliedTables Line.left ⟨16 * (0 : Fin 5).val + j.val, by omega⟩ := fun _ => rfl

theorem test_witness_ControlWordsExecute :
    ((runAt 0 80).phase = .run ∧ (runAt 0 80).jL.toNat < 80 ∧ (runAt 0 80).jR.toNat ≤ 80 ∧
        (runAt 0 80).grant = .left) ∧
      ((runAt 79 0).phase = .run ∧ (runAt 79 0).jL.toNat < 80 ∧ (runAt 79 0).jR.toNat ≤ 80) ∧
      (let s : State := { runAt 80 79 with grant := .right };
        s.phase = .run ∧ s.jL.toNat ≤ 80 ∧ s.jR.toNat < 80 ∧ s.grant = .right) := by decide

theorem test_witness_ControlWordsNotEnabled :
    decodeCw 0x458 = .ok (.rndF4 5 8) ∧ (runAt 81 80).phase = .run ∧ 80 < (runAt 81 80).jL.toNat ∧
      80 < (runAt 80 127).jR.toNat ∧ (runAt 80 0).phase = .run ∧
      ((runAt 80 0).ctr (runAt 80 0).grant).toNat = 80 ∧ (runAt 80 0).jR.toNat ≤ 80 ∧
      (idleAt 16).phase ≠ .run ∧ halted.phase ≠ .run := by decide

theorem test_witness_ControlWordFrame :
    decodeCw 0x458 = .ok (.rndF4 5 8) ∧ (∃ s', exec (.rndF4 5 8) (runAt 79 80) = .next s') ∧
      (runAt 79 80).jL.toNat ≤ 80 ∧ (runAt 79 80).jR.toNat ≤ 80 := ⟨by decide, ⟨_, rfl⟩, by decide, by decide⟩

theorem test_witness_LeftRoundRule :
    ((midRun 79 80).rom = packRom suppliedTables ∧ (midRun 79 80).phase = .run ∧ (midRun 79 80).jR.toNat ≤ 80 ∧
        (midRun 79 80).jL.toNat < 80) ∧
      (midRun 80 0).jL = 80 ∧
      (let s : State := { runAt 0 80 with rom := { romImage with left := romImage.left.set 0 0x500 } };
        s.phase = .run ∧ s.jR.toNat ≤ 80 ∧ 5 ≤ (cwFsel (romRead s.rom .left 0)).toNat) :=
  ⟨⟨rfl, rfl, by decide, by decide⟩, rfl, by decide⟩

theorem test_witness_RightRoundRule :
    ((midRun 80 79).rom = packRom suppliedTables ∧ (midRun 80 79).phase = .run ∧ (midRun 80 79).jL.toNat ≤ 80 ∧
        (midRun 80 79).jR.toNat < 80) ∧
      (midRun 0 80).jR = 80 ∧
      (let s : State := { runAt 80 79 with rom := { romImage with right := romImage.right.set 79 0x7FF } };
        s.phase = .run ∧ s.jL.toNat ≤ 80 ∧ 5 ≤ (cwFsel (romRead s.rom .right 79)).toNat) :=
  ⟨⟨rfl, rfl, by decide, by decide⟩, rfl, by decide⟩

theorem roundEnabled_runAt {jl jr : BitVec 7} {l : Line} (hl : jl.toNat ≤ 80) (hr : jr.toNat ≤ 80)
    (h : ((runAt jl jr).ctr l).toNat < 80) : (runAt jl jr).roundEnabled l :=
  ⟨rfl, fun o => o.elim (fun a => absurd a (by simpa [runAt] using hl)) (fun a => absurd a (by simpa [runAt] using hr)), h⟩

/-- The premises of the last clause of TableFacts and of TablesAssumptions: equal constants of different bands, tables
that meet the assumptions, and the band that is the identity. -/
theorem test_witness_TablesAssumptions :
    krom .left 0 = krom .right 4 ∧ suppliedTables.wf = true ∧
      ∀ j : Fin 16, messageIndex suppliedTables Line.left ⟨16 * (0 : Fin 5).val + j.val, by omega⟩ =
        BitVec.ofNat 4 j.val := by decide +kernel

/-- Two states that agree on the left line, the block and the ROM and differ in the right line's counter, and the two
kinds of control word. -/
theorem test_witness_LinesAreIndependent :
    (runAt 79 0).roundEnabled .left ∧ (runAt 79 80).roundEnabled .left ∧
      (runAt 79 0).regs .left = (runAt 79 80).regs .left ∧ (runAt 79 0).ctr .left = (runAt 79 80).ctr .left ∧
      (runAt 79 0).X = (runAt 79 80).X ∧ (runAt 79 0).rom = (runAt 79 80).rom ∧
      (cwFsel (romRead (runAt 79 0).rom .left 79)).toNat ≤ 4 :=
  ⟨roundEnabled_runAt (by decide) (by decide) (by decide), roundEnabled_runAt (by decide) (by decide) (by decide),
    rfl, rfl, rfl, rfl, by decide +kernel⟩

theorem test_witness_LinesAreIndependent_reserved :
    let s : State := { runAt 0 80 with rom := { romImage with left := romImage.left.set 0 0x500 } };
    s.roundEnabled .left ∧ 5 ≤ (cwFsel (romRead s.rom .left 0)).toNat :=
  ⟨⟨rfl, fun o => o.elim (by decide) (by decide), by decide⟩, by decide⟩

theorem test_witness_RoundsCommute :
    let s : State := { runAt 79 0 with rom := packRom suppliedTables };
    s.rom = packRom suppliedTables ∧ s.roundEnabled .left ∧ s.roundEnabled .right :=
  ⟨rfl, ⟨rfl, fun o => o.elim (by decide) (by decide), by decide⟩,
    ⟨rfl, fun o => o.elim (by decide) (by decide), by decide⟩⟩

theorem test_witness_CombineRule :
    (runAt 80 80).nextPins.rst = false ∧ (runAt 80 80).phase = .run ∧ (runAt 80 80).jL = 80 ∧
      (runAt 80 80).jR = 80 := by decide

theorem test_witness_FaultRule :
    (runAt 81 3).nextPins.rst = false ∧ (runAt 81 3).phase = .run ∧ 80 < (runAt 81 3).jL.toNat ∧
      (runAt 80 127).phase = .run ∧ 80 < (runAt 80 127).jR.toNat := by decide

theorem test_witness_HaltOnlyLeftByReset :
    halted.phase = .halt ∧ halted.nextPins.rst = false ∧ (resetting halted 0).phase = .halt ∧
      (nextOf (step (resetting halted 0))).map (·.phase) = some .idle := by decide

theorem test_witness_InitRule : (idleAt 3).phase = .idle ∧ (runAt 0 0).phase ≠ .idle ∧ halted.phase ≠ .idle := by decide

theorem test_witness_PushRule :
    ((idleAt 0).phase = .idle ∧ (idleAt 0).wcnt.toNat ≤ 15) ∧ (idleAt 15).wcnt.toNat ≤ 15 ∧
      16 ≤ (idleAt 16).wcnt.toNat ∧ 16 ≤ (idleAt 31).wcnt.toNat ∧ (runAt 0 0).phase ≠ .idle := by decide

theorem test_witness_CompressSeedsBothLines : (idleAt 16).phase = .idle ∧ (idleAt 16).wcnt = 16 := by decide

theorem test_witness_InvalidBlockSizeRule :
    (idleAt 15).phase = .idle ∧ (idleAt 15).wcnt ≠ 16 ∧ (idleAt 17).wcnt ≠ 16 ∧ (idleAt 15).EBS = false ∧
      (nextOf (exec (.compress 0) (idleAt 15))).map (·.EBS) = some true := by decide

theorem test_witness_AcceptanceRule :
    (runAt 40 12).phase ≠ .idle ∧ halted.phase ≠ .idle ∧ (driven (idleAt 0) 0x200000001).phase = .idle ∧
      (driven (idleAt 0) 0x200000001).nextPins = ⟨false, 0x200000001⟩ := by decide

theorem test_witness_CommandFrame :
    (∃ s', exec (decodeCmd 0x000000000) (idleAt 16) = .next s') ∧
      (∃ s', exec (decodeCmd 0x100000000) (idleAt 16) = .next s') ∧
      (∃ s', exec (decodeCmd 0x200000000) (idleAt 15) = .next s') ∧
      (∃ s', exec (decodeCmd 0x300000000) (idleAt 16) = .next s') ∧
      cmdOp 0x000000000 = 0 ∧ cmdOp 0x100000000 = 1 ∧ cmdOp 0x200000000 = 2 ∧ cmdOp 0x300000000 = 3 :=
  ⟨⟨_, rfl⟩, ⟨_, rfl⟩, ⟨_, rfl⟩, ⟨_, rfl⟩, by decide, by decide, by decide, by decide⟩

theorem test_witness_StepRunsAcceptedCommand :
    (driven (idleAt 0) 0x200000080).phase = .idle ∧ (driven (idleAt 0) 0x200000080).nextPins.rst = false ∧
      decodeCmd (driven (idleAt 0) 0x200000080).nextPins.cmd = .push 0x80 := by decide

/-- The three clauses: one line done; one line chosen; both chosen, where the first round answers a next state. -/
theorem test_witness_StepRunsControlWord :
    ((runAt 79 80).phase = .run ∧ (runAt 79 80).nextPins.rst = false ∧
        decodeCw (romRead (runAt 79 80).rom .left 79) = .ok (.rndF4 13 6) ∧ (runAt 79 80).ctr .right = 80) ∧
      (let s : State := { runAt 0 79 with sched := [.one .left] };
        decodeCw (romRead s.rom .left 0) = .ok (.rndF0 0 11) ∧ (s.ctr .right).toNat < 80 ∧ s.sched = [.one .left]) ∧
      (let s : State := { runAt 0 0 with sched := [.both .left] };
        decodeCw (romRead s.rom .right 0) = .ok (.rndF4 5 8) ∧ (s.ctr .right).toNat < 80 ∧
          ∃ m, exec (.rndF0 0 11) { s with pins := s.pins.tail, sched := [], grant := .left } = .next m) :=
  ⟨by decide +kernel, by decide +kernel, by decide +kernel, by decide +kernel, ⟨_, rfl⟩⟩

theorem test_witness_PlacedWordRuns :
    decodeTableWord 40 0x3FFFFFFFF = some (.compress 0xFFFFFFFF) ∧ decodeTableWord 16 0x4FF = some (.rndF4 15 15) := by
  decide

theorem test_witness_ReadyAfterReset :
    (resetting { halted with h := hE1, X := blockE1 } 0x300000000).nextPins.rst = true ∧
      (resetting (runAt 80 80) 0).nextPins.rst = true := by decide

theorem test_witness_ResetTransitionRule :
    (resetting (runAt 40 12) 0x200000005).nextPins.rst = true ∧ (resetting halted 0).nextPins.rst = true ∧
      halted.nextPins.rst = false ∧ halted.ERI = true ∧ (∃ s', step halted = .next s') :=
  ⟨by decide, by decide, by decide, by decide, ⟨_, rfl⟩⟩

/-- The invariant in IDLE, and in RUN at both ends of the counters; and a step that answers. -/
theorem test_witness_StepKeepsInvariant :
    (packedIdle 0).Inv suppliedTables ∧ (packedIdle 17).Inv suppliedTables ∧ (midRun 0 0).Inv suppliedTables ∧
      (midRun 80 80).Inv suppliedTables ∧ (∃ s', step (packedIdle 17) = .next s') ∧
      (∃ s', step (midRun 80 80) = .next s') :=
  ⟨packedIdle_inv (by decide), packedIdle_inv (by decide), midRun_inv (by decide) (by decide),
    midRun_inv (by decide) (by decide), ⟨_, rfl⟩, ⟨_, rfl⟩⟩

/-- A step that answers, for each branch of the statements over all steps (StateWordsWriters, BlockBufferWriters,
RomNeverWritten, FillCounterRule, EbsRule). -/
theorem test_witness_steps :
    (∃ s', step (resetting halted 0) = .next s') ∧ (∃ s', step (driven (idleAt 5) 0x100000000) = .next s') ∧
      (∃ s', step (driven (idleAt 15) 0x200000000) = .next s') ∧
      (∃ s', step (driven (idleAt 16) 0x200000000) = .next s') ∧
      (∃ s', step (driven (idleAt 15) 0x300000000) = .next s') ∧
      (∃ s', step (driven (idleAt 16) 0x300000000) = .next s') ∧ (∃ s', step (runAt 80 80) = .next s') ∧
      (∃ s', step halted = .next s') ∧ (∃ s', exec (.push 0) (idleAt 15) = .next s') ∧ halted.nextPins.rst = false :=
  ⟨⟨_, rfl⟩, ⟨_, rfl⟩, ⟨_, rfl⟩, ⟨_, rfl⟩, ⟨_, rfl⟩, ⟨_, rfl⟩, ⟨_, rfl⟩, ⟨_, rfl⟩, ⟨_, rfl⟩, by decide⟩

/-- With the packed ROM: an idle step, a fault step, and COMBINE (PhaseTransfer and EriRule). -/
theorem test_witness_PhaseTransfer_EriRule :
    let s (jl jr : BitVec 7) : State := { runAt jl jr with rom := packRom suppliedTables }
    (s 81 0).rom = packRom suppliedTables ∧ (∃ s', step (s 81 0) = .next s') ∧ (∃ s', step (s 80 80) = .next s') ∧
      (∃ s', step (packedIdle 16) = .next s') ∧ ((s 81 0).ERI = true ↔ (s 81 0).phase = .halt) :=
  ⟨rfl, ⟨_, rfl⟩, ⟨_, rfl⟩, ⟨_, rfl⟩, by simp [runAt, State.reset]⟩

theorem test_witness_RunStepsAdvance :
    let s : State := { runAt 79 80 with rom := packRom suppliedTables }
    s.rom = packRom suppliedTables ∧ (∃ s', step s = .next s') ∧ s.nextPins.rst = false ∧ s.phase = .run ∧
      s.jL.toNat ≤ 80 ∧ s.jR.toNat ≤ 80 ∧ s.jL.toNat + s.jR.toNat < 160 :=
  ⟨rfl, ⟨_, rfl⟩, rfl, rfl, by decide, by decide, by decide⟩

theorem test_witness_DigestLayout : State.h { idleAt 0 with h := hE1 } = hE1 := rfl

/-- Two idle states that differ in the registers, the counters and every block word from `wcnt` on, and two states of
RUN that differ in the line last granted. -/
theorem test_witness_HiddenStateIsUnobservable :
    (idleAt 0).agree { idleAt 0 with
      L := regsIV, jR := 80, grant := .right, X := Vector.replicate 16 0xFFFFFFFF } ∧
      (runAt 1 2).agree { runAt 1 2 with grant := .right } := by
  constructor
  · refine ⟨rfl, rfl, rfl, rfl, rfl, rfl, rfl, rfl, rfl, fun i hi => absurd hi (Nat.not_lt_zero _), fun h => by cases h⟩
  · exact ⟨rfl, rfl, rfl, rfl, rfl, rfl, rfl, rfl, rfl, fun _ _ => rfl, fun _ => ⟨rfl, rfl, rfl, rfl, rfl⟩⟩

theorem noReset_of_nil {s : State} (h : s.pins = []) : s.noReset := by simp [State.noReset, h]

/-- At the start of RUN and with both lines done. -/
theorem test_witness_CompressionFinishes :
    ((midRun 0 0).Inv suppliedTables ∧ (midRun 0 0).phase = .run ∧ (midRun 0 0).noReset) ∧
      ((midRun 80 80).Inv suppliedTables ∧ (midRun 80 80).phase = .run ∧ (midRun 80 80).noReset) :=
  ⟨⟨midRun_inv (by decide) (by decide), rfl, noReset_of_nil rfl⟩,
    ⟨midRun_inv (by decide) (by decide), rfl, noReset_of_nil rfl⟩⟩

theorem test_witness_CompressCommandComputes :
    let s := driven (packedIdle 16) 0x300000000
    s.Inv suppliedTables ∧ s.phase = .idle ∧ s.wcnt = 16 ∧ s.noReset ∧ cmdOp s.nextPins.cmd = 3 :=
  ⟨packedIdle_inv (n := 16) (by decide), rfl, rfl, by simp [State.noReset, driven], by decide⟩

/-- An idle engine with an empty buffer, to which the block of E1 and COMPRESS are presented. -/
def protocolE1 : State :=
  { packedIdle 0 with pins := blockE1.toList.map (fun w => ⟨false, packCmd 2 w⟩) ++ [⟨false, packCmd 3 0⟩] }

theorem test_witness_BlockProtocolComputes :
    protocolE1.Inv suppliedTables ∧ protocolE1.phase = .idle ∧ protocolE1.wcnt = 0 ∧ protocolE1.noReset ∧
      protocolE1.pins = blockE1.toList.map (fun w => ⟨false, packCmd 2 w⟩) ++ ⟨false, packCmd 3 0⟩ :: [] :=
  ⟨packedIdle_inv (n := 0) (by decide), rfl, rfl, by simp [State.noReset, protocolE1, blockE1], rfl⟩

end Sys2Proof.Tests
end

section
/-! SUPPORT. The rotation (R10): its value as a number, its bits, the amounts 0 and from 32 on, and the statement about
it. -/

namespace Sys2Proof.Machine

theorem rotl_mod (x : Word) (n : Nat) : rotl x (n % 32) = rotl x n :=
  BitVec.rotateLeft_mod_eq_rotateLeft

/-- The bits that stay are a multiple of `2 ^ n`: shifting out of the word and reducing modulo `2 ^ 32` commute. -/
theorem mul_two_pow_mod_word (v : Nat) {n : Nat} (hn : n ≤ 32) :
    v * 2 ^ n % 2 ^ 32 = (v % 2 ^ (32 - n)) <<< n := by
  have hpow : 2 ^ 32 = 2 ^ (32 - n) * 2 ^ n := by rw [← Nat.pow_add, Nat.sub_add_cancel hn]
  rw [hpow, Nat.mul_mod_mul_right, Nat.shiftLeft_eq]

/-- The bits carried around fit below those that stay. -/
theorem carried_lt (x : Word) {n : Nat} (hn : n ≤ 32) : x.toNat / 2 ^ (32 - n) < 2 ^ n := by
  apply Nat.div_lt_of_lt_mul
  rw [← Nat.pow_add, Nat.sub_add_cancel hn]
  exact x.isLt

/-- R10's formula: the two parts of the rotation have no bit in common, so their OR is their sum. -/
theorem toNat_rotl (x : Word) {n : Nat} (hn : n < 32) :
    (rotl x n).toNat = x.toNat * 2 ^ n % 2 ^ 32 + x.toNat / 2 ^ (32 - n) := by
  rw [rotl, BitVec.toNat_rotateLeft, Nat.mod_eq_of_lt hn, Nat.shiftLeft_eq, Nat.shiftRight_eq_div_pow,
    mul_two_pow_mod_word _ hn.le, Nat.shiftLeft_add_eq_or_of_lt (carried_lt x hn.le)]

theorem getLsbD_rotl (x : Word) {n : Nat} (hn : n < 32) (j : Nat) :
    (rotl x n).getLsbD j = if j < n then x.getLsbD (32 - n + j) else (decide (j < 32) && x.getLsbD (j - n)) := by
  rw [rotl, BitVec.getLsbD_rotateLeft_of_le hn, Bool.cond_decide]

/-- R10's bit movement: a bit either stays inside the word or comes around to the low end. -/
theorem getLsbD_rotl_moved (x : Word) {n i : Nat} (hn : n < 32) (hi : i < 32) :
    (rotl x n).getLsbD ((i + n) % 32) = x.getLsbD i := by
  rw [getLsbD_rotl x hn]
  by_cases h : i + n < 32
  case pos =>
    have hpos : (i + n) % 32 = i + n := Nat.mod_eq_of_lt h
    simp [hpos, h]
  case neg =>
    have hpos : (i + n) % 32 = i + n - 32 := by omega
    have hlow : i + n - 32 < n := by omega
    have hback : 32 - n + (i + n - 32) = i := by omega
    simp [hpos, hlow, hback]

@[simp] theorem rotl_zero (x : Word) : rotl x 0 = x := by
  apply BitVec.eq_of_toNat_eq
  rw [toNat_rotl x (by decide)]
  have := x.isLt
  omega

/-- Settles O6: the formula and the bit movement for 1 to 31, and the total extension to every other amount. -/
theorem rotationRule : Obligations.RotationRule := by
  refine ⟨fun x n _ hn => ?_, rotl_zero, fun x n => (rotl_mod x n).symm⟩
  have hlt : n < 32 := by omega
  exact ⟨toNat_rotl x hlt, fun _ hi => getLsbD_rotl_moved x hlt hi⟩

end Sys2Proof.Machine
end

section
/-! SUPPORT. What the transitions of RUN leave unchanged, and the two fields they do not read. -/

namespace Sys2Proof.Machine

/-! The frame of a round. -/

/-- What a round leaves unchanged, and the use of a choice of SCHEDULE too. -/
structure RunFrame (s s' : State) : Prop where
  h : s'.h = s.h
  X : s'.X = s.X
  wcnt : s'.wcnt = s.wcnt
  EBS : s'.EBS = s.EBS
  rom : s'.rom = s.rom
  pins : s'.pins = s.pins

theorem RunFrame.refl (s : State) : RunFrame s s := ⟨rfl, rfl, rfl, rfl, rfl, rfl⟩

theorem RunFrame.trans {s m s' : State} (a : RunFrame s m) (b : RunFrame m s') : RunFrame s s' :=
  ⟨b.h.trans a.h, b.X.trans a.X, b.wcnt.trans a.wcnt, b.EBS.trans a.EBS, b.rom.trans a.rom, b.pins.trans a.pins⟩

theorem dropTurn_frame (s : State) : RunFrame s s.dropTurn := by constructor <;> simp

theorem raiseInvalidRoundIndex_frame (s : State) : RunFrame s (raiseInvalidRoundIndex s) := by constructor <;> simp

theorem issueRound_frame {l : Line} {s s' : State} (h : issueRound l s = .next s') : RunFrame s s' := by
  rcases issueRound_cases l s with ⟨_, n, r, sh, he⟩ | ⟨_, he⟩ | ⟨_, he⟩ <;>
    cases Host.Outcome.next.inj (he.symm.trans h)
  · constructor <;> simp
  · exact raiseInvalidRoundIndex_frame s
  · exact .refl s

/-- What every round keeps, the one or two rounds of a choice keep. -/
theorem roundsTo_induction {P : State → Prop} (round : ∀ l a b, P a → issueRound l a = .next b → P b)
    {s s' : State} (hs : P s) (h : roundsTo s s') : P s' := by
  obtain ⟨l, h | ⟨m, hm, h⟩⟩ := h
  · exact round _ _ _ hs h
  · exact round _ _ _ (round _ _ _ hs hm) h

/-- What every round and the use of a choice of SCHEDULE keep, a transition of RUN keeps that is neither FAULT nor
COMBINE. -/
theorem microStep_induction {P : State → Prop} (round : ∀ l a b, P a → issueRound l a = .next b → P b)
    {s s' : State} (hs : P s) (hdrop : P s.dropTurn) (ho : ¬ s.overrun) (hj : ¬ (s.jL = 80 ∧ s.jR = 80))
    (h : microStep s = .next s') : P s' := by
  rcases microStep_cases h with ⟨ho', _⟩ | ⟨hl, hr, _⟩ | ⟨_, _, h | h⟩
  · exact absurd ho' ho
  · exact absurd ⟨hl, hr⟩ hj
  · exact roundsTo_induction round hs h
  · exact roundsTo_induction round hdrop h

/-- A transition of RUN is COMBINE with both counters at 80, and keeps the frame of a round otherwise. -/
theorem microStep_combine_or_frame {s s' : State} (h : microStep s = .next s') :
    ((s.jL = 80 ∧ s.jR = 80) ∧ s' = combine s) ∨ (¬ (s.jL = 80 ∧ s.jR = 80) ∧ RunFrame s s') := by
  by_cases hj : s.jL = 80 ∧ s.jR = 80
  · rw [microStep_joined hj.1 hj.2] at h
    exact .inl ⟨hj, (Host.Outcome.next.inj h).symm⟩
  · refine .inr ⟨hj, ?_⟩
    by_cases ho : s.overrun
    · rw [microStep_overrun ho] at h
      cases h
      exact raiseInvalidRoundIndex_frame s
    · exact microStep_induction (P := RunFrame s) (fun _ _ _ ha hb => ha.trans (issueRound_frame hb))
        (.refl s) (dropTurn_frame s) ho hj h

/-- The same of a step in RUN, with the counters of the state before it. The numerals are in `simp`'s spelling. -/
theorem step_combine_or_frame {s s' : State} (h : microStep s.dropPins = .next s') :
    ((s.jL = 80#7 ∧ s.jR = 80#7) ∧ s' = combine s.dropPins) ∨
      (¬ (s.jL = 80#7 ∧ s.jR = 80#7) ∧ RunFrame s.dropPins s') :=
  microStep_combine_or_frame h

/-! With a ROM packed from TABLES no round raises InvalidRoundIndex while the counters are in range. -/

/-- In RUN with the counters in range, over a given ROM and with a given ERI. -/
def State.inRange (t : Tables) (e : Bool) (s : State) : Prop :=
  s.rom = packRom t ∧ s.phase = .run ∧ ¬ s.overrun ∧ s.ERI = e

/-- In range with a packed ROM, a round of a line is R97's round or, with the line done, nothing. -/
theorem issueRound_packed_cases {t : Tables} {l : Line} {s s' : State} (hr : s.rom = packRom t) (ho : ¬ s.overrun)
    (h : issueRound l s = .next s') :
    (∃ he : s.roundEnabled l, s' = { s with grant := l }.setLine l
      (lineRound t l s.X ⟨(s.ctr l).toNat, roundEnabled_lt he⟩ (s.regs l)) (s.ctr l + 1)) ∨ s' = s := by
  by_cases he : s.roundEnabled l
  · rw [issueRound_packed hr he] at h
    exact .inl ⟨he, (Host.Outcome.next.inj h).symm⟩
  · rw [issueRound_disabled he fun _ => ho] at h
    exact .inr (Host.Outcome.next.inj h).symm

/-- A round grows its line's counter to 80 at most. -/
theorem not_overrun_setLine {s : State} {l : Line} (he : s.roundEnabled l) (regs : LineRegs) :
    ¬ ({ s with grant := l }.setLine l regs (s.ctr l + 1)).overrun := by
  obtain ⟨-, ho, hc⟩ := he
  have hs := ctr_succ_toNat hc
  cases l <;> simp [State.overrun] at * <;> omega

theorem issueRound_inRange {t : Tables} {e : Bool} {l : Line} {s s' : State} (hs : s.inRange t e)
    (h : issueRound l s = .next s') : s'.inRange t e := by
  obtain ⟨hr, hp, ho, hE⟩ := hs
  rcases issueRound_packed_cases hr ho h with ⟨he, rfl⟩ | rfl
  · exact ⟨by simpa using hr, by simpa using hp, not_overrun_setLine he _, by simpa using hE⟩
  · exact ⟨hr, hp, ho, hE⟩

theorem overrun_dropTurn {s : State} : s.dropTurn.overrun ↔ s.overrun := by simp [State.overrun]

theorem inRange_dropTurn {t : Tables} {e : Bool} {s : State} (hs : s.inRange t e) : s.dropTurn.inRange t e := by
  simpa [State.inRange, overrun_dropTurn] using hs

/-! The fields no transition of RUN reads. -/

/-- The two fields that no micro-operation reads, at other values: the flag EBS and the line last granted. -/
def State.withUnread (s : State) (b : Bool) (g : Line) : State := { s with EBS := b, grant := g }

/-- An operation answers the same next state, up to the two unread fields, whatever they hold; EBS is passed on, and the
line last granted is the same after it where it was the same before. -/
def ignoresUnread (f : State → Outcome) : Prop :=
  ∀ s b g, ∃ s' g', f s = .next s' ∧ f (s.withUnread b g) = .next (s'.withUnread b g') ∧ (g = s.grant → g' = s'.grant)

theorem ignoresUnread_issueRound (l : Line) : ignoresUnread (issueRound l) := by
  intro s b g
  by_cases h : s.roundEnabled l
  · have hu : (s.withUnread b g).roundEnabled l := h
    cases hd : decodeCw (romRead s.rom l ⟨(s.ctr l).toNat, roundEnabled_lt h⟩) with
    | ok i =>
      obtain ⟨n, -, hx⟩ := exec_decodeCw hd
      have hs' : State.roundEnabled { s with grant := l } l := h
      have hu' : State.roundEnabled { s.withUnread b g with grant := l } l := h
      rw [issueRound_ok h hd, issueRound_ok hu hd, hx, hx, runRound_enabled _ _ _ hs', runRound_enabled _ _ _ hu']
      exact ⟨_, l, rfl, by cases l <;> rfl, by simp⟩
    | error e =>
      rw [issueRound_reserved h hd, issueRound_reserved hu hd]
      exact ⟨_, g, rfl, rfl, id⟩
  · by_cases ho : s.phase = .run ∧ s.overrun
    · rw [issueRound_overrun ho.1 ho.2, issueRound_overrun (s := s.withUnread b g) ho.1 ho.2]
      exact ⟨_, g, rfl, rfl, id⟩
    · have ho' : s.phase = .run → ¬ s.overrun := fun a b => ho ⟨a, b⟩
      rw [issueRound_disabled h ho', issueRound_disabled (s := s.withUnread b g) h ho']
      exact ⟨_, g, rfl, rfl, id⟩

theorem ignoresUnread_issueTurn (u : Turn) : ignoresUnread (issueTurn u) := by
  cases u with
  | one l => exact ignoresUnread_issueRound l
  | both l =>
    intro s b g
    obtain ⟨m, gm, hm, hm', hg⟩ := ignoresUnread_issueRound l s b g
    obtain ⟨s', g', hs, hs', hg'⟩ := ignoresUnread_issueRound (otherLine l) m b gm
    rw [issueTurn_both hm, issueTurn_both hm']
    exact ⟨s', g', hs, hs', hg' ∘ hg⟩

theorem dropTurn_withUnread (s : State) (b : Bool) (g : Line) :
    (s.withUnread b g).dropTurn = s.dropTurn.withUnread b g := by
  rcases s with ⟨_, _, _, _, _, _, _, _, _, _, _, _, _ | _, _, _⟩ <;> rfl

theorem ignoresUnread_microStep : ignoresUnread microStep := by
  intro s b g
  rcases counters_cases s with ho | ⟨hl, hr⟩ | ⟨hl, hr⟩ | ⟨hl, hr⟩ | ⟨hl, hr⟩
  · rw [microStep_overrun ho, microStep_overrun (s := s.withUnread b g) ho]
    exact ⟨_, g, rfl, rfl, id⟩
  · rw [microStep_joined hl hr, microStep_joined (s := s.withUnread b g) hl hr]
    exact ⟨_, g, rfl, rfl, id⟩
  · rw [microStep_left hl hr, microStep_left (s := s.withUnread b g) hl hr]
    exact ignoresUnread_issueRound .left s b g
  · rw [microStep_right hl hr, microStep_right (s := s.withUnread b g) hl hr]
    exact ignoresUnread_issueRound .right s b g
  · have ht : (s.withUnread b g).turn = s.turn := rfl
    rw [microStep_both hl hr, microStep_both (s := s.withUnread b g) hl hr, dropTurn_withUnread, ht]
    simpa using ignoresUnread_issueTurn s.turn s.dropTurn b g

end Sys2Proof.Machine
end

section
/-! SUPPORT. Two runs side by side: a relation of two states under the same inputs, carried through a step. -/

namespace Sys2Proof.Machine

/-- Both outcomes are next states, and the relation holds of these. -/
def bothNext (R : State → State → Prop) (x y : Outcome) : Prop :=
  ∃ s' u', x = .next s' ∧ y = .next u' ∧ R s' u'

/-- An accepted command carries a relation over that the four effects carry over. -/
theorem bothNext_command {R : State → State → Prop} {s u : State} (hs : s.phase = .idle) (hu : u.phase = .idle)
    (nop : R s u) (init : R (initEffect s) (initEffect u)) (push : ∀ d, R (pushEffect d s) (pushEffect d u))
    (compress : R (compressEffect s) (compressEffect u)) (w : BitVec 34) :
    bothNext R (exec (decodeCmd w) s) (exec (decodeCmd w) u) := by
  rcases decodeCmd_cases w with ⟨-, hd⟩ | ⟨-, hd⟩ | ⟨-, hd⟩ | ⟨-, hd⟩ <;> rw [hd]
  · exact ⟨s, u, rfl, rfl, nop⟩
  · exact ⟨_, _, accept_idle hs _, accept_idle hu _, init⟩
  · exact ⟨_, _, accept_idle hs _, accept_idle hu _, push _⟩
  · exact ⟨_, _, accept_idle hs _, accept_idle hu _, compress⟩

/-- A step carries a relation over that reset, the command, the micro-operation and the idle edge each carry over. -/
theorem bothNext_step {R : State → State → Prop} {s u : State} (hpins : u.nextPins = s.nextPins)
    (hphase : u.phase = s.phase) (reset : R (resetTransition s.dropPins) (resetTransition u.dropPins))
    (idle : s.phase = .idle → ∀ w, bothNext R (exec (decodeCmd w) s.dropPins) (exec (decodeCmd w) u.dropPins))
    (run : s.phase = .run → bothNext R (microStep s.dropPins) (microStep u.dropPins))
    (halt : R s.dropPins u.dropPins) : bothNext R (step s) (step u) := by
  cases hr : s.nextPins.rst with
  | true =>
    rw [step_reset hr, step_reset (hpins ▸ hr)]
    exact ⟨_, _, rfl, rfl, reset⟩
  | false =>
    have hru : u.nextPins.rst = false := hpins ▸ hr
    cases hp : s.phase with
    | idle =>
      rw [step_idle hr hp, step_idle hru (hphase.trans hp), hpins]
      exact idle hp _
    | run =>
      rw [step_run hr hp, step_run hru (hphase.trans hp)]
      exact run hp
    | halt =>
      rw [step_halt hr hp, step_halt hru (hphase.trans hp)]
      exact ⟨_, _, rfl, rfl, halt⟩

end Sys2Proof.Machine
end

section
/-! SUPPORT. The fields of the state after an accepted PUSH and an accepted COMPRESS, one lemma per field. -/

namespace Sys2Proof.Machine

@[simp] theorem pushEffect_h (d : Word) (s : State) : (pushEffect d s).h = s.h := by
  unfold pushEffect; split <;> rfl
@[simp] theorem pushEffect_wcnt (d : Word) (s : State) :
    (pushEffect d s).wcnt = if s.wcnt.toNat ≤ 15 then s.wcnt + 1 else 17 := by
  unfold pushEffect; split <;> rfl
@[simp] theorem pushEffect_phase (d : Word) (s : State) : (pushEffect d s).phase = s.phase := by
  unfold pushEffect; split <;> rfl
@[simp] theorem pushEffect_EBS (d : Word) (s : State) : (pushEffect d s).EBS = s.EBS := by
  unfold pushEffect; split <;> rfl
@[simp] theorem pushEffect_ERI (d : Word) (s : State) : (pushEffect d s).ERI = s.ERI := by
  unfold pushEffect; split <;> rfl
@[simp] theorem pushEffect_rom (d : Word) (s : State) : (pushEffect d s).rom = s.rom := by
  unfold pushEffect; split <;> rfl

@[simp] theorem compressEffect_h (s : State) : (compressEffect s).h = s.h := by
  unfold compressEffect; split <;> rfl
@[simp] theorem compressEffect_wcnt (s : State) :
    (compressEffect s).wcnt = if s.wcnt = 16 then s.wcnt else 0 := by
  unfold compressEffect; split <;> rfl
@[simp] theorem compressEffect_phase (s : State) :
    (compressEffect s).phase = if s.wcnt = 16 then .run else s.phase := by
  unfold compressEffect; split <;> rfl
@[simp] theorem compressEffect_EBS (s : State) : (compressEffect s).EBS = if s.wcnt = 16 then s.EBS else true := by
  unfold compressEffect; split <;> rfl
@[simp] theorem compressEffect_ERI (s : State) : (compressEffect s).ERI = s.ERI := by
  unfold compressEffect; split <;> rfl
@[simp] theorem compressEffect_rom (s : State) : (compressEffect s).rom = s.rom := by
  unfold compressEffect; split <;> rfl

end Sys2Proof.Machine
end

section
/-! SUPPORT. The statements about the registers of the state (10_state.md): who writes the state words, the fill counter
and the two flags, the invariant of the reachable states, and what no port ever shows. -/

namespace Sys2Proof.Machine

/-! The writers of the state words, the fill counter and EBS. -/

/-- Settles O39: by the cases of a step; in RUN everything but COMBINE keeps the frame of a round. -/
theorem stateWordsWriters : Obligations.StateWordsWriters := by
  intro s s' h
  rcases step_cases h with ⟨hr, rfl⟩ | ⟨hr, hp, hc, rfl⟩ | ⟨hr, hp, hc, rfl⟩ | ⟨hr, hp, hc, rfl⟩ | ⟨hr, hp, hc, rfl⟩ |
    ⟨hr, hp, hm⟩ | ⟨hr, hp, rfl⟩
  · simp [hr]
  · simp [hr, hp, hc]
  · simp [hr, hp, hc]
  · simp [hr, hp, hc]
  · simp [hr, hp, hc]
  · rcases step_combine_or_frame hm with ⟨hj, rfl⟩ | ⟨hj, hf⟩
    · simp [hr, hp, hj]
    · simp [hr, hp, hj, hf.h]
  · simp [hr, hp]

/-- The fill counter after a step. -/
theorem step_wcnt {s s' : State} (h : step s = .next s') :
    s'.wcnt =
      if s.nextPins.rst = true then 0
      else if s.phase = .idle then
        if cmdOp s.nextPins.cmd = 1 then 0
        else if cmdOp s.nextPins.cmd = 2 then (if s.wcnt.toNat ≤ 15 then s.wcnt + 1 else 17)
        else if cmdOp s.nextPins.cmd = 3 ∧ s.wcnt ≠ 16 then 0
        else s.wcnt
      else if s.phase = .run ∧ s.jL = 80 ∧ s.jR = 80 then 0
      else s.wcnt := by
  rcases step_cases h with ⟨hr, rfl⟩ | ⟨hr, hp, hc, rfl⟩ | ⟨hr, hp, hc, rfl⟩ | ⟨hr, hp, hc, rfl⟩ | ⟨hr, hp, hc, rfl⟩ |
    ⟨hr, hp, hm⟩ | ⟨hr, hp, rfl⟩
  · simp [hr]
  · simp [hr, hp, hc]
  · simp [hr, hp, hc]
  · by_cases hw : s.wcnt.toNat ≤ 15 <;> simp [hr, hp, hc, hw]
  · by_cases hw : s.wcnt = 16#5 <;> simp [hr, hp, hc, hw]
  · rcases step_combine_or_frame hm with ⟨hj, rfl⟩ | ⟨hj, hf⟩
    · simp [hr, hp, hj]
    · simp [hr, hp, hj, hf.wcnt]
  · simp [hr, hp]

/-- R22: each value the equation can give is 0, the old one, one more than at most 15, or 17. -/
theorem step_wcnt_le {s s' : State} (h : step s = .next s') (hw : s.wcnt.toNat ≤ 17) : s'.wcnt.toNat ≤ 17 := by
  rw [step_wcnt h]
  split_ifs <;> bv_omega

/-- Settles O42: the equation by the cases of a step, and the bound from the equation. -/
theorem fillCounterRule : Obligations.FillCounterRule :=
  fun _ _ h => ⟨step_wcnt_le h, step_wcnt h⟩

/-- Where EBS comes from after a step. -/
theorem step_EBS {s s' : State} (h : step s = .next s') :
    s'.EBS =
      if s.nextPins.rst = true then false
      else if s.phase = .idle ∧ cmdOp s.nextPins.cmd = 1 then false
      else if s.phase = .idle ∧ cmdOp s.nextPins.cmd = 3 ∧ s.wcnt ≠ 16 then true
      else s.EBS := by
  rcases step_cases h with ⟨hr, rfl⟩ | ⟨hr, hp, hc, rfl⟩ | ⟨hr, hp, hc, rfl⟩ | ⟨hr, hp, hc, rfl⟩ | ⟨hr, hp, hc, rfl⟩ |
    ⟨hr, hp, hm⟩ | ⟨hr, hp, rfl⟩
  · simp [hr]
  · simp [hr, hp, hc]
  · simp [hr, hp, hc]
  · simp [hr, hp, hc]
  · by_cases hw : s.wcnt = 16#5 <;> simp [hr, hp, hc, hw]
  · rcases step_combine_or_frame hm with ⟨-, rfl⟩ | ⟨-, hf⟩
    · simp [hr, hp]
    · simp [hr, hp, hf.EBS]
  · simp [hr, hp]

/-- The second state is the first but for EBS. -/
def sameButEBS (s u : State) : Prop := { u with EBS := s.EBS } = s

theorem sameButEBS_pushEffect (d : Word) (s : State) (b : Bool) :
    sameButEBS (pushEffect d s) (pushEffect d { s with EBS := b }) := by
  by_cases hw : s.wcnt.toNat ≤ 15
  · rw [pushEffect_room hw, pushEffect_room (s := { s with EBS := b }) hw]
    rfl
  · rw [pushEffect_full hw, pushEffect_full (s := { s with EBS := b }) hw]
    rfl

theorem sameButEBS_compressEffect (s : State) (b : Bool) :
    sameButEBS (compressEffect s) (compressEffect { s with EBS := b }) := by
  by_cases hw : s.wcnt = 16
  · rw [compressEffect_full hw, compressEffect_full (s := { s with EBS := b }) hw]
    rfl
  · rw [compressEffect_not_full hw, compressEffect_not_full (s := { s with EBS := b }) hw]
    rfl

theorem sameButEBS_microStep (s : State) (b : Bool) :
    bothNext sameButEBS (microStep s) (microStep { s with EBS := b }) := by
  obtain ⟨s', g, hs, hu, hg⟩ := ignoresUnread_microStep s b s.grant
  refine ⟨s', _, hs, hu, ?_⟩
  rw [hg rfl]
  rfl

/-- R23: no rule reads EBS. -/
theorem sameButEBS_step (s : State) (b : Bool) : bothNext sameButEBS (step s) (step { s with EBS := b }) := by
  have command (hp : s.dropPins.phase = .idle) := bothNext_command (R := sameButEBS) (s := s.dropPins)
    (u := { s.dropPins with EBS := b }) hp hp rfl rfl (sameButEBS_pushEffect · _ b) (sameButEBS_compressEffect _ b)
  exact bothNext_step rfl rfl rfl command (fun _ => sameButEBS_microStep s.dropPins b) rfl

/-- Settles O45: the equation by the cases of a step, and that nothing reads EBS by two runs side by side. -/
theorem ebsRule : Obligations.EbsRule := by
  refine ⟨fun s s' h => step_EBS h, fun s s' b h => ?_⟩
  obtain ⟨s₁, u, hs, hu, he⟩ := sameButEBS_step s b
  cases hs.symm.trans h
  exact ⟨u, hu, he⟩

/-! ERI. -/

/-- With a packed ROM, in range, a transition of RUN other than COMBINE stays in RUN, in range. -/
theorem microStep_inRange {t : Tables} {e : Bool} {s s' : State} (hs : s.inRange t e) (hj : ¬ (s.jL = 80 ∧ s.jR = 80))
    (h : microStep s = .next s') : s'.inRange t e := by
  obtain ⟨-, -, ho, -⟩ := id hs
  exact microStep_induction (fun _ _ _ => issueRound_inRange) hs (inRange_dropTurn hs) ho hj h

/-- What a transition of RUN does to ERI and the phase, with a packed ROM. -/
theorem microStep_ERI_phase {t : Tables} {s s' : State} (hrom : s.rom = packRom t) (hp : s.phase = .run)
    (h : microStep s = .next s') :
    (s.overrun ∧ s'.ERI = true ∧ s'.phase = .halt) ∨ (¬ s.overrun ∧ s'.ERI = s.ERI ∧ s'.phase ≠ .halt) := by
  by_cases ho : s.overrun
  · rw [microStep_overrun ho] at h
    cases h
    exact .inl ⟨ho, rfl, rfl⟩
  · refine .inr ⟨ho, ?_⟩
    rcases microStep_combine_or_frame h with ⟨-, rfl⟩ | ⟨hj, -⟩
    · simp
    · obtain ⟨-, hp', -, hE⟩ := microStep_inRange (e := s.ERI) ⟨hrom, hp, ho, rfl⟩ hj h
      simp [hE, hp']

/-- Settles O46: by the cases of a step; in RUN by `microStep_ERI_phase`. -/
theorem eriRule : Obligations.EriRule := by
  intro t s s' hrom h
  rcases step_cases h with ⟨hr, rfl⟩ | ⟨hr, hp, hc, rfl⟩ | ⟨hr, hp, hc, rfl⟩ | ⟨hr, hp, hc, rfl⟩ | ⟨hr, hp, hc, rfl⟩ |
    ⟨hr, hp, hm⟩ | ⟨hr, hp, rfl⟩
  · simp [hr]
  · simp [hr, hp]
  · simp [hr, hp]
  · simp [hr, hp]
  · by_cases hw : s.wcnt = 16#5 <;> simp [hr, hp, hw]
  · rcases microStep_ERI_phase (s := s.dropPins) hrom hp hm with ⟨ho, hE, hp'⟩ | ⟨ho, hE, hp'⟩ <;>
      simp only [State.overrun, dropPins_jL, dropPins_jR, dropPins_ERI] at ho hE <;>
      simp +contextual [hr, hp, ho, hE, hp']
  · simp [hr, hp]

/-! The invariant of the reachable states. -/

theorem romImage_eq_packRom : romImage = packRom suppliedTables := by decide +kernel

/-- Settles O37: the reset ROM is the supplied tables packed, and nothing runs. -/
theorem invariantAtReset : Obligations.InvariantAtReset :=
  ⟨romImage_eq_packRom, ⟨rfl, by decide⟩, by decide, fun h => by cases h⟩

/-- R37: no step writes the schedule ROM. -/
theorem step_rom {s s' : State} (h : step s = .next s') : s'.rom = s.rom := by
  rcases step_cases h with ⟨_, rfl⟩ | ⟨_, _, _, rfl⟩ | ⟨_, _, _, rfl⟩ | ⟨_, _, _, rfl⟩ | ⟨_, _, _, rfl⟩ | ⟨_, _, hm⟩ |
    ⟨_, _, rfl⟩
  · simp
  · simp
  · simp
  · simp
  · simp
  · rcases microStep_combine_or_frame hm with ⟨_, rfl⟩ | ⟨_, hf⟩
    · simp
    · simp [hf.rom]
  · simp

/-- In RUN over a packed ROM, at a state that the rounds done so far account for. -/
def State.midRun (t : Tables) (s : State) : Prop := s.rom = packRom t ∧ s.phase = .run ∧ s.midway t

theorem midway_not_overrun {t : Tables} {s : State} (h : s.midway t) : ¬ s.overrun := by
  obtain ⟨-, hl, hr, -⟩ := h
  unfold State.overrun
  omega

/-- R29, said once for both lines. -/
theorem midway_iff {t : Tables} {s : State} : s.midway t ↔
    s.wcnt = 16 ∧ ∀ l, (s.ctr l).toNat ≤ 80 ∧ s.regs l = lineAfter t l s.X s.h (s.ctr l).toNat := by
  constructor
  · rintro ⟨hw, hl, hr, hL, hR⟩
    refine ⟨hw, fun l => ?_⟩
    cases l
    · exact ⟨hl, hL⟩
    · exact ⟨hr, hR⟩
  · rintro ⟨hw, hline⟩
    exact ⟨hw, (hline .left).1, (hline .right).1, (hline .left).2, (hline .right).2⟩

theorem eq_or_eq_otherLine (l m : Line) : m = l ∨ m = otherLine l := by
  cases l <;> cases m <;> decide

/-- R97's next round of a line: its registers stay the result of as many rounds as its counter says. -/
theorem midway_setLine {t : Tables} {s : State} {l : Line} (h : s.midway t) (he : s.roundEnabled l) :
    (s.setLine l (lineRound t l s.X ⟨(s.ctr l).toNat, roundEnabled_lt he⟩ (s.regs l)) (s.ctr l + 1)).midway t := by
  rw [midway_iff] at h ⊢
  obtain ⟨hw, hline⟩ := h
  have hc := roundEnabled_lt he
  refine ⟨by simpa using hw, fun m => ?_⟩
  rcases eq_or_eq_otherLine l m with rfl | rfl
  · rw [setLine_ctr, setLine_regs, setLine_X, setLine_h, ctr_succ_toNat hc, lineAfter_succ t m s.X s.h hc,
      ← (hline m).2]
    exact ⟨hc, rfl⟩
  · simpa using hline (otherLine l)

theorem issueRound_midRun {t : Tables} {l : Line} {s s' : State} (hs : s.midRun t)
    (h : issueRound l s = .next s') : s'.midRun t := by
  obtain ⟨hr, hp, hm⟩ := hs
  rcases issueRound_packed_cases hr (midway_not_overrun hm) h with ⟨he, rfl⟩ | rfl
  · exact ⟨by simpa using hr, by simpa using hp, midway_setLine (s := { s with grant := l }) hm he⟩
  · exact ⟨hr, hp, hm⟩

theorem midRun_dropTurn {t : Tables} {s : State} (hs : s.midRun t) : s.dropTurn.midRun t := by
  simpa [State.midRun, State.midway] using hs

/-- SEED: no round is done, and the registers are the state words. -/
theorem seed_midway (t : Tables) {s : State} (h : s.wcnt = 16) : (seed s).midway t :=
  ⟨h, by simp, by simp, rfl, rfl⟩

/-- A state of RUN that a step reaches is SEED's, or one more or two more rounds of a state of RUN. -/
theorem step_midway {t : Tables} {s s' : State} (hi : s.Inv t) (h : step s = .next s') (hp' : s'.phase = .run) :
    s'.midway t := by
  obtain ⟨hrom, -, -, hrun⟩ := hi
  rcases step_cases h with ⟨_, rfl⟩ | ⟨_, hp, _, rfl⟩ | ⟨_, hp, _, rfl⟩ | ⟨_, hp, _, rfl⟩ | ⟨_, hp, _, rfl⟩ |
    ⟨_, hp, hm⟩ | ⟨_, hp, rfl⟩
  · simp at hp'
  · simp [hp] at hp'
  · simp [hp] at hp'
  · simp [hp] at hp'
  · by_cases hw : s.wcnt = 16
    · rw [compressEffect_full (s := s.dropPins) hw]
      exact seed_midway t hw
    · rw [compressEffect_not_full (s := s.dropPins) hw] at hp'
      simp [hp] at hp'
  · have hs : s.dropPins.midRun t := ⟨hrom, hp, hrun hp⟩
    rcases microStep_combine_or_frame hm with ⟨_, rfl⟩ | ⟨hj, _⟩
    · simp at hp'
    · have ho := midway_not_overrun (hrun hp)
      exact (microStep_induction (fun _ _ _ => issueRound_midRun) hs (midRun_dropTurn hs) ho hj hm).2.2
  · simp [hp] at hp'

/-- With the counters in range a step keeps ERI at 0 and does not halt. -/
theorem step_safe {t : Tables} {s s' : State} (hi : s.Inv t) (h : step s = .next s') : s'.safe := by
  obtain ⟨hrom, ⟨hE, hh⟩, -, hrun⟩ := hi
  obtain ⟨hE', hiff⟩ := eriRule t s s' hrom h
  have no_fault : ¬ (s.phase = .run ∧ (80 < s.jL.toNat ∨ 80 < s.jR.toNat)) :=
    fun ⟨hp, ho⟩ => midway_not_overrun (hrun hp) ho
  have hE0 : s'.ERI = false := by
    rw [hE', if_neg no_fault, hE]
    exact ite_self _
  have halted_iff := hiff (by simp [hE, hh])
  exact ⟨hE0, fun hp => by simp [halted_iff.2 hp] at hE0⟩

/-- Settles O38: each part of the invariant by the rule of its field. -/
theorem stepKeepsInvariant : Obligations.StepKeepsInvariant := by
  intro t s s' hi h
  obtain ⟨hrom, -, hw, -⟩ := id hi
  exact ⟨(step_rom h).trans hrom, step_safe hi h, step_wcnt_le h hw, step_midway hi h⟩

/-! HALT. -/

theorem runRound_not_run {s : State} (h : s.phase ≠ .run) (f : Word → Word → Word → Word) (r sh : BitVec 4) :
    runRound f r sh s = .next s :=
  runRound_disabled f r sh (not_roundEnabled_of_phase h) fun hp => absurd hp h

/-- R19: in HALT no command is accepted and no round is enabled. -/
theorem exec_halt {s : State} (h : s.phase = .halt) (i : Instr) : exec i s = .next s := by
  have not_idle : s.phase ≠ .idle := by simp [h]
  have not_run : s.phase ≠ .run := by simp [h]
  cases i with
  | nop _ => rfl
  | init _ => exact accept_not_idle not_idle _
  | push _ => exact accept_not_idle not_idle _
  | compress _ => exact accept_not_idle not_idle _
  | rndF0 _ _ => exact runRound_not_run not_run _ _ _
  | rndF1 _ _ => exact runRound_not_run not_run _ _ _
  | rndF2 _ _ => exact runRound_not_run not_run _ _ _
  | rndF3 _ _ => exact runRound_not_run not_run _ _ _
  | rndF4 _ _ => exact runRound_not_run not_run _ _ _

/-- A step from HALT that is no reset stays there. -/
theorem step_leaves_halt {s s' : State} (hp : s.phase = .halt) (h : step s = .next s') (hp' : s'.phase ≠ .halt) :
    s.nextPins.rst = true ∧ s'.phase = .idle := by
  cases hr : s.nextPins.rst with
  | true =>
    rw [step_reset hr] at h
    cases h
    exact ⟨rfl, rfl⟩
  | false =>
    rw [step_halt hr hp] at h
    cases h
    exact absurd hp hp'

/-- Settles O23. -/
theorem haltOnlyLeftByReset : Obligations.HaltOnlyLeftByReset :=
  ⟨fun _ hp hr => step_halt hr hp, fun i _ hp => exec_halt hp i,
    fun s hp => by simp [State.ready, State.busy, hp], fun _ _ => step_leaves_halt⟩

/-! What no port ever shows. -/

/-- READY, STATUS and DIGEST read only what two such states agree on. -/
theorem observe_eq_of_agree {s u : State} (h : s.agree u) : s.observe = u.observe := by
  obtain ⟨hh, hw, hp, hB, hE, -⟩ := h
  simp only [State.observe, State.ready, State.status, State.busy, State.digest, hh, hw, hp, hB, hE]

theorem agree_dropPins {s u : State} (h : s.agree u) : s.dropPins.agree u.dropPins := by
  obtain ⟨hh, hw, hp, hB, hE, hrom, hpins, hrest⟩ := h
  exact ⟨hh, hw, hp, hB, hE, hrom, congrArg List.tail hpins, hrest⟩

/-- Reset overwrites the hidden state with the same free values on both sides. -/
theorem agree_resetTransition {s u : State} (h : s.agree u) : (resetTransition s).agree (resetTransition u) := by
  obtain ⟨-, -, -, -, -, hrom, hpins, hsched, hdraws, -⟩ := h
  simp [State.agree, hrom, hpins, hsched, hdraws]

theorem agree_initEffect {s u : State} (hp : s.phase = .idle) (h : s.agree u) :
    (initEffect s).agree (initEffect u) := by
  obtain ⟨-, -, hpu, -, hE, hrom, hpins, hsched, hdraws, -⟩ := h
  simp [State.agree, hp, ← hpu, hE, hrom, hpins, hsched, hdraws]

/-- Writing the same word at the same place extends the agreement of two blocks by that place. -/
theorem getElem_set_eq_of_eq_below {X Y : Vector Word 16} {n : Nat} (hX hY : n < 16) (d : Word)
    (h : ∀ i : Fin 16, i.val < n → X[i] = Y[i]) (i : Fin 16) (hi : i.val < n + 1) :
    (X.set n d hX)[i] = (Y.set n d hY)[i] := by
  by_cases he : n = i.val
  · simp [he]
  · simpa [Vector.getElem_set, he] using h i (by omega)

theorem agree_pushEffect {s u : State} (hp : s.phase = .idle) (h : s.agree u) (d : Word) :
    (pushEffect d s).agree (pushEffect d u) := by
  obtain ⟨hh, hwu, hpu, hB, hE, hrom, hpins, hsched, hdraws, hX, -⟩ := h
  have not_run : s.phase ≠ .run := by simp [hp]
  by_cases hw : s.wcnt.toNat ≤ 15
  · have hi : (s.wcnt + 1).toNat = s.wcnt.toNat + 1 := by bv_omega
    rw [pushEffect_room hw, pushEffect_room (s := u) (hwu ▸ hw)]
    refine ⟨hh, congrArg (· + 1) hwu, hpu, hB, hE, hrom, hpins, hsched, hdraws, fun i hlt => ?_,
      fun hr => absurd hr not_run⟩
    simpa [← hwu] using getElem_set_eq_of_eq_below (by omega) (by omega) d hX i (hlt.trans_eq hi)
  · have hfull (i : Fin 16) : i.val < s.wcnt.toNat := by omega
    rw [pushEffect_full hw, pushEffect_full (s := u) (hwu ▸ hw)]
    exact ⟨hh, rfl, hpu, hB, hE, hrom, hpins, hsched, hdraws, fun i _ => hX i (hfull i), fun hr => absurd hr not_run⟩

theorem agree_compressEffect {s u : State} (hp : s.phase = .idle) (h : s.agree u) :
    (compressEffect s).agree (compressEffect u) := by
  obtain ⟨hh, hwu, hpu, hB, hE, hrom, hpins, hsched, hdraws, hX, -⟩ := h
  by_cases hw : s.wcnt = 16
  · have block_eq : s.X = u.X := Vector.ext fun i hi => hX ⟨i, hi⟩ (by simpa [hw] using hi)
    rw [compressEffect_full hw, compressEffect_full (hwu ▸ hw)]
    simp [State.agree, hh, hwu, hB, hE, hrom, hpins, hsched, hdraws, block_eq]
  · rw [compressEffect_not_full hw, compressEffect_not_full (hwu ▸ hw)]
    simp [State.agree, hh, ← hpu, hp, hE, hrom, hpins, hsched, hdraws]

/-- In RUN nothing is hidden but the line last granted. -/
theorem eq_withUnread_of_agree {s u : State} (hp : s.phase = .run) (h : s.agree u) :
    u = s.withUnread s.EBS u.grant := by
  obtain ⟨hh, hw, hpu, hB, hE, hrom, hpins, hsched, hdraws, -, hrun⟩ := h
  obtain ⟨hL, hR, hjL, hjR, hX⟩ := hrun hp
  cases u
  simp_all [State.withUnread]

theorem agree_withUnread (s : State) (g : Line) : s.agree (s.withUnread s.EBS g) :=
  ⟨rfl, rfl, rfl, rfl, rfl, rfl, rfl, rfl, rfl, fun _ _ => rfl, fun _ => ⟨rfl, rfl, rfl, rfl, rfl⟩⟩

theorem microStep_EBS {s s' : State} (h : microStep s = .next s') : s'.EBS = s.EBS := by
  rcases microStep_combine_or_frame h with ⟨-, rfl⟩ | ⟨-, hf⟩
  · rfl
  · exact hf.EBS

theorem agree_microStep {s u : State} (hp : s.phase = .run) (h : s.agree u) :
    bothNext State.agree (microStep s) (microStep u) := by
  obtain ⟨s', g, hs, hu, -⟩ := ignoresUnread_microStep s s.EBS u.grant
  rw [← eq_withUnread_of_agree hp h, ← microStep_EBS hs] at hu
  exact ⟨s', _, hs, hu, agree_withUnread s' g⟩

/-- Settles O49: the same ports, and two runs side by side: reset and SEED overwrite the hidden state, PUSH the word
that `wcnt` uncovers, and in RUN nothing read is hidden. -/
theorem hiddenStateIsUnobservable : Obligations.HiddenStateIsUnobservable := by
  intro s u h
  have hd : s.dropPins.agree u.dropPins := agree_dropPins h
  obtain ⟨-, -, hphase, -, -, -, hpins, -⟩ := id h
  have command (hp : s.phase = .idle) := bothNext_command (s := s.dropPins) (u := u.dropPins) hp (hphase ▸ hp) hd
    (agree_initEffect hp hd) (agree_pushEffect hp hd) (agree_compressEffect hp hd)
  have hnext : u.nextPins = s.nextPins := by rw [State.nextPins, State.nextPins, hpins]
  exact ⟨observe_eq_of_agree h, bothNext_step hnext hphase.symm (agree_resetTransition hd) command
    (fun hp => agree_microStep hp hd) hd⟩

end Sys2Proof.Machine
end

section
/-! SUPPORT. The statements about memory (20_memory.md): who writes the block buffer, and that nothing writes the schedule
ROM. -/

namespace Sys2Proof.Machine

/-! The block buffer. -/

@[simp] theorem compressEffect_X (s : State) : (compressEffect s).X = s.X := by
  unfold compressEffect; split <;> rfl

/-- R34, R62: PUSH writes at `wcnt`, and nowhere once that is past the last word. -/
@[simp] theorem pushEffect_X (d : Word) (s : State) :
    (pushEffect d s).X = if s.wcnt.toNat ≤ 15 then s.X.setIfInBounds s.wcnt.toNat d else s.X := by
  by_cases hw : s.wcnt.toNat ≤ 15
  · rw [pushEffect_room hw, if_pos hw]
    exact Vector.ext fun i hi => by simp [Vector.getElem_set, Vector.getElem_setIfInBounds]
  · rw [pushEffect_full hw, if_neg hw]

/-- Settles O40: by the cases of a step; in RUN neither COMBINE nor a round writes the block. -/
theorem blockBufferWriters : Obligations.BlockBufferWriters := by
  intro s s' h hrst
  rcases step_cases h with ⟨hr, -⟩ | ⟨-, hp, hc, rfl⟩ | ⟨-, hp, hc, rfl⟩ | ⟨-, hp, hc, rfl⟩ | ⟨-, hp, hc, rfl⟩ |
    ⟨-, hp, hm⟩ | ⟨-, hp, rfl⟩
  · simp [hrst] at hr
  · simp [hc]
  · simp [hc]
  · by_cases hw : s.wcnt.toNat ≤ 15 <;> simp [hp, hc, hw]
  · simp [hc]
  · rcases microStep_combine_or_frame hm with ⟨-, rfl⟩ | ⟨-, hf⟩
    · simp [hp]
    · simp [hp, hf.X]
  · simp [hp]

/-! The schedule ROM. -/

/-- A command keeps the ROM whether accepted or not, its effect keeping it. -/
theorem accept_rom {e : State → State} (he : ∀ s, (e s).rom = s.rom) {s s' : State} (h : accept s e = .next s') :
    s'.rom = s.rom := by
  by_cases hp : s.phase = .idle
  · cases (accept_idle hp e).symm.trans h
    exact he s
  · cases (accept_not_idle hp e).symm.trans h
    rfl

theorem runRound_frame {f : Word → Word → Word → Word} {r sh : BitVec 4} {s s' : State}
    (h : runRound f r sh s = .next s') : RunFrame s s' := by
  rcases runRound_cases f r sh s with ⟨_, hx⟩ | ⟨_, _, hx⟩ | ⟨_, _, hx⟩ <;> cases hx.symm.trans h
  · constructor <;> simp
  · exact raiseInvalidRoundIndex_frame s
  · exact .refl s

theorem exec_rom {i : Instr} {s s' : State} (h : exec i s = .next s') : s'.rom = s.rom := by
  cases i with
  | nop _ => cases h; rfl
  | init _ => exact accept_rom initEffect_rom h
  | push d => exact accept_rom (pushEffect_rom d) h
  | compress _ => exact accept_rom compressEffect_rom h
  | rndF0 _ _ => exact (runRound_frame h).rom
  | rndF1 _ _ => exact (runRound_frame h).rom
  | rndF2 _ _ => exact (runRound_frame h).rom
  | rndF3 _ _ => exact (runRound_frame h).rom
  | rndF4 _ _ => exact (runRound_frame h).rom

/-- Settles O41: of steps by `step_rom`, and of instructions one by one. -/
theorem romNeverWritten : Obligations.RomNeverWritten :=
  ⟨fun _ _ => step_rom, fun _ _ _ => exec_rom⟩

end Sys2Proof.Machine
end

section
/-! SUPPORT. A word and its fields determine each other, and the statements about the two formats (30_encoding.md
sections 2, 3 and 6). -/

namespace Sys2Proof

/-! Packing. -/

/-- R47: a command word is made of its two fields. -/
@[simp] theorem packCmd_cmdOp_cmdData (w : BitVec 34) : packCmd (cmdOp w) (cmdData w) = w := by
  have join : packCmd (cmdOp w) (cmdData w) = w.extractLsb' 0 34 :=
    BitVec.extractLsb'_append_extractLsb'_eq_extractLsb' (len₂ := 2) (len₁ := 32) rfl
  exact join.trans BitVec.extractLsb'_eq_self

/-- R52: a control word is made of its three fields. -/
@[simp] theorem packCw_cwFsel_cwR_cwS (w : BitVec 11) : packCw (cwFsel w) (cwR w) (cwS w) = w := by
  have high : cwFsel w ++ cwR w = w.extractLsb' 4 7 :=
    BitVec.extractLsb'_append_extractLsb'_eq_extractLsb' (len₂ := 3) (len₁ := 4) rfl
  have join : w.extractLsb' 4 7 ++ cwS w = w.extractLsb' 0 11 :=
    BitVec.extractLsb'_append_extractLsb'_eq_extractLsb' (len₂ := 7) (len₁ := 4) rfl
  rw [packCw, high]
  exact join.trans BitVec.extractLsb'_eq_self

/-- Placing bits above others is an addition of integers. -/
theorem toNat_append_eq_add {m n : Nat} (x : BitVec m) (y : BitVec n) :
    (x ++ y).toNat = x.toNat * 2 ^ n + y.toNat := by
  rw [BitVec.toNat_append, ← Nat.shiftLeft_add_eq_or_of_lt y.isLt, Nat.shiftLeft_eq]

/-- R47's integer formula. -/
theorem ofNat_eq_packCmd (op : BitVec 2) (d : Word) :
    BitVec.ofNat 34 (op.toNat * 2 ^ 32 + d.toNat) = packCmd op d := by
  rw [← toNat_append_eq_add op d, BitVec.ofNat_toNat]
  exact BitVec.setWidth_eq _

/-- R52's integer formula. -/
theorem ofNat_eq_packCw (f : BitVec 3) (r s : BitVec 4) :
    BitVec.ofNat 11 (f.toNat * 256 + r.toNat * 16 + s.toNat) = packCw f r s := by
  have sum : f.toNat * 256 + r.toNat * 16 + s.toNat = ((f ++ r) ++ s).toNat := by
    rw [toNat_append_eq_add, toNat_append_eq_add]
    omega
  rw [sum, BitVec.ofNat_toNat]
  exact BitVec.setWidth_eq _

/-! Decoding what is encoded, and encoding what is decoded. -/

theorem decode_encode (i : Instr) : decode (encode i) = .ok i := by
  cases i <;> simp [encode, decode, decodeCmd, decodeCw]

theorem encode_decodeCmd (w : BitVec 34) : encode (decodeCmd w) = .cmd w := by
  rcases Machine.decodeCmd_cases w with ⟨ho, hd⟩ | ⟨ho, hd⟩ | ⟨ho, hd⟩ | ⟨ho, hd⟩ <;>
    rw [hd, encode, ← ho, packCmd_cmdOp_cmdData]

theorem encode_of_decodeCw {w : BitVec 11} {i : Instr} (h : decodeCw w = .ok i) : encode i = .cw w := by
  unfold decodeCw at h
  split_ifs at h with hf hf hf hf hf <;> cases h <;> rw [encode, ← hf, packCw_cwFsel_cwR_cwS]

theorem encode_of_decode {w : CodeWord} {i : Instr} (h : decode w = .ok i) : encode i = w := by
  cases w with
  | cmd w =>
    cases h
    exact encode_decodeCmd w
  | cw w => exact encode_of_decodeCw h

/-- R53: a control word with a reserved selector is rejected by the name of that selector. -/
theorem decodeCw_reserved {w : BitVec 11} (h : 5 ≤ (cwFsel w).toNat) :
    decodeCw w = .error (.reservedFsel (cwFsel w)) := by
  have differs (f : BitVec 3) (hf : f.toNat < 5) : cwFsel w ≠ f := fun he => by
    rw [he] at h
    omega
  simp [decodeCw, differs]

/-- R50, R53: reserved control words are rejected, and no other word of either format is. -/
theorem decode_isError_iff (w : CodeWord) :
    (∃ e, decode w = .error e) ↔ ∃ c, w = .cw c ∧ 5 ≤ (cwFsel c).toNat := by
  constructor
  · rintro ⟨e, he⟩
    cases w with
    | cmd w => cases he
    | cw w =>
      refine ⟨w, rfl, Nat.lt_of_not_le fun legal => ?_⟩
      obtain ⟨i, hi⟩ := (decodeCw_isOk_iff w).2 legal
      cases hi.symm.trans he
  · rintro ⟨c, rfl, hc⟩
    exact ⟨_, decodeCw_reserved hc⟩

/-- Settles O1: both directions of the round trip, and the rejected words. -/
theorem encodingIsBijective : Obligations.EncodingIsBijective :=
  ⟨fun i _ => decode_encode i, fun _ _ => encode_of_decode, decode_isError_iff⟩

/-! The maps of the two selectors. -/

/-- Settles O2: the word of the formula is the packed word, and that is the encoding of each command. -/
theorem commandMap : Obligations.CommandMap := by
  intro d
  have formula (op : BitVec 2) := congrArg decodeCmd (ofNat_eq_packCmd op d)
  have decodes {i : Instr} {op : BitVec 2} (hi : encode i = .cmd (packCmd op d)) : decodeCmd (packCmd op d) = i :=
    Except.ok.inj ((congrArg decode hi).symm.trans (decode_encode i))
  exact ⟨(formula 0).trans (decodes rfl), (formula 1).trans (decodes rfl), (formula 2).trans (decodes rfl),
    (formula 3).trans (decodes rfl)⟩

/-- Settles O4: the word of the formula is the packed word: the encoding of a round, or a reserved word. -/
theorem controlWordMap : Obligations.ControlWordMap := by
  intro r s
  have formula (f : BitVec 3) := congrArg decodeCw (ofNat_eq_packCw f r s)
  have reserved (f : BitVec 3) (hf : 5 ≤ f.toNat) : decodeCw (packCw f r s) = .error (.reservedFsel f) := by
    simpa using decodeCw_reserved (w := packCw f r s) (by simpa using hf)
  exact ⟨(formula 0).trans (decode_encode (.rndF0 r s)), (formula 1).trans (decode_encode (.rndF1 r s)),
    (formula 2).trans (decode_encode (.rndF2 r s)), (formula 3).trans (decode_encode (.rndF3 r s)),
    (formula 4).trans (decode_encode (.rndF4 r s)), (formula 5).trans (reserved 5 (by decide)),
    (formula 6).trans (reserved 6 (by decide)), (formula 7).trans (reserved 7 (by decide))⟩

/-- Settles O5: nine closed words. -/
theorem writtenWordsDecode : Obligations.WrittenWordsDecode := by
  unfold Obligations.WrittenWordsDecode
  decide

end Sys2Proof
end

section
/-! SUPPORT. The statements that a decoded word is what runs (30_encoding.md section 5): every instruction answers, a
step in RUN executes the control word of the ROM, and a placed word is what the next step executes. -/

namespace Sys2Proof.Machine

/-! Every instruction answers a next state. -/

theorem accept_answers (s : State) (e : State → State) : ∃ s', accept s e = .next s' := by
  by_cases hp : s.phase = .idle
  · exact ⟨_, accept_idle hp e⟩
  · exact ⟨_, accept_not_idle hp e⟩

theorem runRound_answers (f : Word → Word → Word → Word) (r sh : BitVec 4) (s : State) :
    ∃ s', runRound f r sh s = .next s' := by
  rcases runRound_cases f r sh s with ⟨_, h⟩ | ⟨_, _, h⟩ | ⟨_, _, h⟩ <;> exact ⟨_, h⟩

theorem exec_answers (i : Instr) (s : State) : ∃ s', exec i s = .next s' := by
  cases i with
  | nop _ => exact ⟨s, rfl⟩
  | init _ => exact accept_answers s _
  | push _ => exact accept_answers s _
  | compress _ => exact accept_answers s _
  | rndF0 _ _ => exact runRound_answers _ _ _ s
  | rndF1 _ _ => exact runRound_answers _ _ _ s
  | rndF2 _ _ => exact runRound_answers _ _ _ s
  | rndF3 _ _ => exact runRound_answers _ _ _ s
  | rndF4 _ _ => exact runRound_answers _ _ _ s

/-- Settles O3: a command word always decodes, the meanings of NOP, INIT and COMPRESS do not read the data word, and
every instruction answers. -/
theorem everyCommandWordIsLegal : Obligations.EveryCommandWordIsLegal :=
  ⟨fun w => ⟨decodeCmd w, rfl⟩, fun _ _ => ⟨rfl, rfl, rfl⟩, fun w => exec_answers (decodeCmd w)⟩

/-! The control word of a step in RUN. -/

/-- R58, said once for both lines: the round of a line below 80 is enabled where the other line is at 80 at most. -/
theorem roundEnabled_of_le {s : State} {l : Line} (hp : s.phase = .run) (hl : (s.ctr l).toNat < 80)
    (ho : (s.ctr (otherLine l)).toNat ≤ 80) : s.roundEnabled l := by
  refine ⟨hp, ?_, hl⟩
  cases l <;> simp [State.overrun] at * <;> omega

theorem microStep_only {s : State} {l : Line} (hl : (s.ctr l).toNat < 80) (ho : s.ctr (otherLine l) = 80) :
    microStep s = issueRound l s := by
  cases l with
  | left => exact microStep_left hl ho
  | right => exact microStep_right ho hl

/-- R98: where both lines are below 80 the head of the script is taken. -/
theorem microStep_scripted {s : State} {l : Line} {u : Turn} {rest : List Turn} (hl : (s.ctr l).toNat < 80)
    (ho : (s.ctr (otherLine l)).toNat < 80) (hs : s.sched = u :: rest) :
    microStep s = issueTurn u { s with sched := rest } := by
  have turn : s.turn = u := by simp [State.turn, hs]
  have used : s.dropTurn = { s with sched := rest } := by simp [State.dropTurn, hs]
  rw [← turn, ← used]
  cases l with
  | left => exact microStep_both hl ho
  | right => exact microStep_both ho hl

/-- R92: the round of one line leaves the other's enabled, with its counter and the ROM as they were. -/
theorem exec_round_keeps_other {s m : State} {l : Line} {w : BitVec 11} {i : Instr} (hl : s.roundEnabled l)
    (ho : s.roundEnabled (otherLine l)) (hi : decodeCw w = .ok i) (hm : exec i { s with grant := l } = .next m) :
    m.roundEnabled (otherLine l) ∧ m.ctr (otherLine l) = s.ctr (otherLine l) ∧ m.rom = s.rom := by
  obtain ⟨n, -, hx⟩ := exec_decodeCw hi
  have granted : State.roundEnabled { s with grant := l } l := hl
  rw [hx, runRound_enabled _ _ _ granted] at hm
  cases hm
  exact ⟨roundEnabled_other hl ho _, setLine_ctr_other _ _ _ _, setLine_rom _ _ _ _⟩

/-- The two rounds of one choice of SCHEDULE execute the two control words, one in the state the other leaves. -/
theorem issueTurn_both_ok {s m : State} {l : Line} {i k : Instr} (hl : s.roundEnabled l)
    (ho : s.roundEnabled (otherLine l))
    (hi : decodeCw (romRead s.rom l ⟨(s.ctr l).toNat, roundEnabled_lt hl⟩) = .ok i)
    (hm : exec i { s with grant := l } = .next m)
    (hk : decodeCw (romRead s.rom (otherLine l) ⟨(s.ctr (otherLine l)).toNat, roundEnabled_lt ho⟩) = .ok k) :
    issueTurn (.both l) s = exec k { m with grant := otherLine l } := by
  obtain ⟨enabled, hctr, hrom⟩ := exec_round_keeps_other hl ho hi hm
  rw [issueTurn_both ((issueRound_ok hl hi).trans hm)]
  exact issueRound_ok enabled (by simpa only [hctr, hrom] using hk)

/-- Settles O32: the micro-operation is the round of the only line below 80, or the choice at the head of the script. -/
theorem stepRunsControlWord : Obligations.StepRunsControlWord := by
  intro s l i hp hr hj hi
  rw [step_run hr hp]
  refine ⟨fun ho => ?_, fun rest ho hs => ?_, fun rest m k hk hs hm hk' => ?_⟩
  · have enabled : s.dropPins.roundEnabled l := roundEnabled_of_le hp hj (congrArg BitVec.toNat ho).le
    rw [microStep_only (s := s.dropPins) hj ho]
    exact issueRound_ok enabled hi
  · rw [microStep_scripted (s := s.dropPins) hj ho hs]
    exact issueRound_ok (s := { s.dropPins with sched := rest }) (roundEnabled_of_le hp hj ho.le) hi
  · rw [microStep_scripted (s := s.dropPins) hj hk hs]
    have hl : s.roundEnabled l := roundEnabled_of_le hp hj hk.le
    have ho : s.roundEnabled (otherLine l) := roundEnabled_of_le hp hk (by cases l <;> exact hj.le)
    exact issueTurn_both_ok (s := { s.dropPins with sched := rest }) hl ho hi hm hk'

/-! The placed word. -/

theorem decode_of_decodeTableWord {n w : Nat} {i : Instr} (h : decodeTableWord n w = some i) :
    ∃ c, tableWord n w = some c ∧ decode c = .ok i := by
  obtain ⟨c, row, hc⟩ := Option.bind_eq_some_iff.1 h
  refine ⟨c, row, ?_⟩
  cases hd : decode c with
  | ok k => rw [hd] at hc; cases hc; rfl
  | error e => rw [hd] at hc; cases hc

/-- The words of a 34-bit row are command words. -/
theorem cmd_of_tableWord {w : Nat} {c : CodeWord} (h : tableWord 40 w = some c) : ∃ v, c = .cmd v := by
  unfold tableWord at h
  split_ifs at h with wide
  · omega
  · cases h; exact ⟨_, rfl⟩

/-- The words of an 11-bit row are control words. -/
theorem cw_of_tableWord {w : Nat} {c : CodeWord} (h : tableWord 16 w = some c) : ∃ v, c = .cw v := by
  unfold tableWord at h
  split_ifs at h with narrow
  · cases h; exact ⟨_, rfl⟩
  · omega

theorem withFetchWord_of_tableWord {n w : Nat} {c : CodeWord} (h : tableWord n w = some c) (s : State) :
    s.withFetchWord n w = placeWord s c := by
  rw [State.withFetchWord, placeTableWord, h]

theorem step_placeWord_cmd (s : State) (c : BitVec 34) :
    step (placeWord s (.cmd c)) = exec (decodeCmd c) { placeWord s (.cmd c) with pins := s.pins } :=
  step_idle rfl rfl

/-- The placed control word is what the ROM holds for the left line's round 0, which the script chooses. -/
theorem step_placeWord_cw (s : State) {c : BitVec 11} {i : Instr} (h : decodeCw c = .ok i) :
    step (placeWord s (.cw c)) =
      exec i { placeWord s (.cw c) with pins := s.pins, sched := s.sched, grant := .left } := by
  have held : decodeCw (romRead (placeWord s (.cw c)).rom .left 0) = .ok i := by
    simpa [romRead, placeWord] using h
  have unbegun : (0#7).toNat < 80 := by decide
  obtain ⟨-, chosen, -⟩ := stepRunsControlWord (placeWord s (.cw c)) .left i rfl rfl unbegun held
  exact chosen s.sched unbegun rfl

/-- Settles O34: the row's width says which format the word has, and each format has its placement. -/
theorem placedWordRuns : Obligations.PlacedWordRuns := by
  refine fun s w i => ⟨fun h => ?_, fun h => ?_⟩ <;> obtain ⟨c, row, hd⟩ := decode_of_decodeTableWord h <;>
    rw [withFetchWord_of_tableWord row]
  · obtain ⟨v, rfl⟩ := cmd_of_tableWord row
    cases hd
    exact step_placeWord_cmd s v
  · obtain ⟨v, rfl⟩ := cw_of_tableWord row
    exact step_placeWord_cw s hd

end Sys2Proof.Machine
end

section
/-! SUPPORT. The layout of the output ports STATUS and DIGEST (R56, R57). -/

namespace Sys2Proof.Machine

/-! STATUS. -/

/-- R56: the bits of STATUS. -/
theorem getLsbD_status (s : State) (i : Nat) :
    s.status.getLsbD i =
      if i < 5 then s.wcnt.getLsbD i
      else if i - 5 < 1 then (BitVec.ofBool s.busy).getLsbD (i - 5)
      else if i - 5 - 1 < 1 then (BitVec.ofBool s.EBS).getLsbD (i - 5 - 1)
      else (BitVec.ofBool s.ERI).getLsbD (i - 5 - 1 - 1) := by
  simp only [State.status, BitVec.getLsbD_append]

/-- R103: the error flags are what stands above BUSY and `wcnt`. -/
theorem errorCode_eq_flags (s : State) : s.errorCode = BitVec.ofBool s.ERI ++ BitVec.ofBool s.EBS := by
  rw [State.errorCode, State.status, BitVec.extractLsb'_append_eq_of_le (by decide : 5 ≤ 6)]
  exact BitVec.extractLsb'_append_eq_left

theorem errorCode_toNat (s : State) : s.errorCode.toNat = 2 * s.ERI.toNat + s.EBS.toNat := by
  rw [errorCode_eq_flags, toNat_append_eq_add, BitVec.toNat_ofBool, BitVec.toNat_ofBool, pow_one, Nat.mul_comm]

/-- Settles O47. -/
theorem statusLayout : Obligations.StatusLayout := by
  refine ⟨by decide, fun s => ⟨?_, ?_, ?_, BitVec.extractLsb'_append_eq_right, ?_, errorCode_toNat s⟩⟩
  · rw [getLsbD_status]
    simp
  · rw [getLsbD_status]
    simp
  · rw [getLsbD_status]
    simp [State.busy]
  · simp [State.ready]

/-! DIGEST. -/

/-- A slice of a word and what stands above it, from the word's end on, is a slice of what stands above it. -/
theorem extractLsb'_append_word {n : Nat} (hi : BitVec n) (lo : Word) (k len : Nat) :
    (hi ++ lo).extractLsb' (k + 32) len = hi.extractLsb' k len := by
  rw [BitVec.extractLsb'_append_eq_of_le (Nat.le_add_left 32 k), Nat.add_sub_cancel]

/-- Settles O48: each state word is the lowest of DIGEST once the words below it are cut off. -/
theorem digestLayout : Obligations.DigestLayout := by
  refine ⟨fun s => ?_, fun s h => by rw [State.digest, h]; decide⟩
  have above0 (k : Nat) : s.digest.extractLsb' (k + 32) 32 =
      (((s.h.h4 ++ s.h.h3) ++ s.h.h2) ++ s.h.h1).extractLsb' k 32 := extractLsb'_append_word _ s.h.h0 k 32
  have above1 (k : Nat) : s.digest.extractLsb' (k + 64) 32 = ((s.h.h4 ++ s.h.h3) ++ s.h.h2).extractLsb' k 32 :=
    (above0 (k + 32)).trans (extractLsb'_append_word _ s.h.h1 k 32)
  have above2 (k : Nat) : s.digest.extractLsb' (k + 96) 32 = (s.h.h4 ++ s.h.h3).extractLsb' k 32 :=
    (above1 (k + 32)).trans (extractLsb'_append_word _ s.h.h2 k 32)
  have above3 : s.digest.extractLsb' (0 + 128) 32 = s.h.h4.extractLsb' 0 32 :=
    (above2 32).trans (extractLsb'_append_word _ s.h.h3 0 32)
  exact ⟨BitVec.extractLsb'_append_eq_right, (above0 0).trans BitVec.extractLsb'_append_eq_right,
    (above1 0).trans BitVec.extractLsb'_append_eq_right, (above2 0).trans BitVec.extractLsb'_append_eq_right,
    above3.trans BitVec.extractLsb'_eq_self⟩

end Sys2Proof.Machine
end

section
/-! SUPPORT. A compression from SEED to COMBINE (43_compression_step.md sections 1, 6 and 9): how the round counters
grow, what holds at every state of it, and after how many steps it ends. -/

namespace Sys2Proof.Machine

/-! The round counters (R99). -/

theorem otherLine_otherLine (l : Line) : otherLine (otherLine l) = l := by cases l <;> rfl

/-- With a packed ROM an enabled round adds one to its line's counter; the other line's counter and round stay. -/
theorem issueRound_counts {t : Tables} {l : Line} {s s' : State} (hr : s.rom = packRom t) (he : s.roundEnabled l)
    (h : issueRound l s = .next s') :
    (s'.ctr l).toNat = (s.ctr l).toNat + 1 ∧ s'.ctr (otherLine l) = s.ctr (otherLine l) ∧
      (s.roundEnabled (otherLine l) → s'.roundEnabled (otherLine l)) := by
  cases (issueRound_packed hr he).symm.trans h
  refine ⟨?_, setLine_ctr_other _ _ _ _, fun ho => roundEnabled_other he ho _⟩
  rw [setLine_ctr]
  exact ctr_succ_toNat (roundEnabled_lt he)

/-- R99: one line's counter has grown by one, and the other line's by one at most. -/
def advances (s s' : State) : Prop :=
  ∃ l, (s'.ctr l).toNat = (s.ctr l).toNat + 1 ∧
    ((s'.ctr (otherLine l)).toNat = (s.ctr (otherLine l)).toNat ∨
      (s'.ctr (otherLine l)).toNat = (s.ctr (otherLine l)).toNat + 1)

theorem advances_issueRound {t : Tables} {l : Line} {s s' : State} (hr : s.rom = packRom t) (he : s.roundEnabled l)
    (h : issueRound l s = .next s') : advances s s' := by
  obtain ⟨own, other, -⟩ := issueRound_counts hr he h
  exact ⟨l, own, .inl (congrArg BitVec.toNat other)⟩

/-- Where both lines are enabled, each round of a choice of SCHEDULE counts, the second one too. -/
theorem advances_roundsTo {t : Tables} {s s' : State} (hr : s.rom = packRom t) (he : ∀ l, s.roundEnabled l)
    (h : roundsTo s s') : advances s s' := by
  obtain ⟨l, h | ⟨m, hm, h⟩⟩ := h
  · exact advances_issueRound hr (he l) h
  · obtain ⟨own, other, enabled⟩ := issueRound_counts hr (he l) hm
    obtain ⟨own', other', -⟩ := issueRound_counts ((issueRound_frame hm).rom.trans hr) (enabled (he _)) h
    rw [otherLine_otherLine] at other'
    exact ⟨l, by rw [other', own], .inr (by rw [own', other])⟩

/-- R99: with a packed ROM, in range and not both at 80, a transition of RUN takes one or two rounds. -/
theorem advances_microStep {t : Tables} {e : Bool} {s s' : State} (hs : s.inRange t e)
    (hj : ¬ (s.jL = 80 ∧ s.jR = 80)) (h : microStep s = .next s') : advances s s' := by
  obtain ⟨hr, hp, ho, -⟩ := hs
  rcases counters_cases s with hov | hjoin | ⟨hl, hright⟩ | ⟨hleft, hr'⟩ | ⟨hl, hr'⟩
  · exact absurd hov ho
  · exact absurd hjoin hj
  · rw [microStep_left hl hright] at h
    exact advances_issueRound (l := .left) hr ⟨hp, ho, hl⟩ h
  · rw [microStep_right hleft hr'] at h
    exact advances_issueRound (l := .right) hr ⟨hp, ho, hr'⟩ h
  · rw [microStep_both hl hr'] at h
    have enabled : ∀ l, s.dropTurn.roundEnabled l := fun l => by
      refine ⟨by simpa using hp, by simpa [overrun_dropTurn] using ho, ?_⟩
      cases l <;> simpa
    obtain ⟨l, grown⟩ := advances_roundsTo (by simpa using hr) enabled (issueTurn_roundsTo h)
    refine ⟨l, ?_⟩
    cases l <;> simpa using grown

/-- How many rounds both lines have taken. -/
def State.roundsTaken (s : State) : Nat := s.jL.toNat + s.jR.toNat

theorem roundsTaken_of_advances {s s' : State} (h : advances s s') :
    s.roundsTaken < s'.roundsTaken ∧ s'.roundsTaken ≤ s.roundsTaken + 2 := by
  obtain ⟨l, own, other⟩ := h
  unfold State.roundsTaken
  cases l <;> simp only [ctr_left, ctr_right, otherLine_left, otherLine_right] at own other <;> omega

theorem joined_of_roundsTaken {t : Tables} {s : State} (hm : s.midway t) (h : s.roundsTaken = 160) :
    s.jL = 80 ∧ s.jR = 80 := by
  obtain ⟨-, hl, hr, -⟩ := hm
  unfold State.roundsTaken at h
  exact ⟨BitVec.eq_of_toNat_eq (by simp; omega), BitVec.eq_of_toNat_eq (by simp; omega)⟩

theorem roundsTaken_le {t : Tables} {s : State} (hm : s.midway t) : s.roundsTaken ≤ 160 := by
  obtain ⟨-, hl, hr, -⟩ := hm
  unfold State.roundsTaken
  omega

/-! The states of one compression. -/

theorem microStep_answers (s : State) : ∃ s', microStep s = .next s' := by
  obtain ⟨s', -, h, -⟩ := ignoresUnread_microStep s s.EBS s.grant
  exact ⟨s', h⟩

theorem nextPins_rst_of_noReset {s : State} (h : s.noReset) : s.nextPins.rst = false := by
  unfold State.nextPins
  cases hp : s.pins with
  | nil => rfl
  | cons p _ => exact h p (by simp [hp])

theorem noReset_dropPins {s : State} (h : s.noReset) : s.dropPins.noReset :=
  fun p hp => h p (List.mem_of_mem_tail hp)

/-- In RUN, in a compression of the block `X` into the state words `h` that began with the flag EBS at `b`, and with no
reset to come. -/
structure Compressing (t : Tables) (h : StateWords) (X : Vector Word 16) (b : Bool) (s : State) : Prop where
  inv : s.Inv t
  run : s.phase = .run
  noReset : s.noReset
  h_eq : s.h = h
  X_eq : s.X = X
  EBS_eq : s.EBS = b

/-- In IDLE, after that compression. -/
structure Compressed (t : Tables) (h : StateWords) (X : Vector Word 16) (b : Bool) (s : State) : Prop where
  idle : s.phase = .idle
  h_eq : s.h = compress t h X
  X_eq : s.X = X
  wcnt_eq : s.wcnt = 0
  EBS_eq : s.EBS = b
  ERI_eq : s.ERI = false

section
variable {t : Tables} {h : StateWords} {X : Vector Word 16} {b : Bool} {s : State}

theorem Compressing.midway (hs : Compressing t h X b s) : s.midway t := by
  obtain ⟨-, -, -, hrun⟩ := hs.inv
  exact hrun hs.run

theorem Compressing.step_eq (hs : Compressing t h X b s) : step s = microStep s.dropPins :=
  step_run (nextPins_rst_of_noReset hs.noReset) hs.run

theorem Compressing.inRange (hs : Compressing t h X b s) : s.dropPins.inRange t false := by
  obtain ⟨hrom, ⟨hE, -⟩, -⟩ := hs.inv
  exact ⟨hrom, hs.run, midway_not_overrun hs.midway, hE⟩

/-- DIGEST shows the state from before the block. -/
theorem Compressing.digest_eq (hs : Compressing t h X b s) {u : State} (hu : u.h = h) : s.digest = u.digest := by
  rw [State.digest, State.digest, hs.h_eq, hu]

/-- A step that is not COMBINE stays in the compression and takes one or two rounds. -/
theorem compressing_of_step {s' : State} (hs : Compressing t h X b s) (hj : ¬ (s.jL = 80 ∧ s.jR = 80))
    (hstep : step s = .next s') : Compressing t h X b s' ∧ advances s s' := by
  have hm := hs.step_eq.symm.trans hstep
  obtain ⟨-, hrun, -⟩ := microStep_inRange hs.inRange hj hm
  rcases microStep_combine_or_frame hm with ⟨hj', -⟩ | ⟨-, hf⟩
  · exact absurd hj' hj
  · refine ⟨⟨stepKeepsInvariant t s s' hs.inv hstep, hrun, ?_, hf.h.trans hs.h_eq, hf.X.trans hs.X_eq,
      hf.EBS.trans hs.EBS_eq⟩, advances_microStep (s := s.dropPins) hs.inRange hj hm⟩
    have pins_left := noReset_dropPins hs.noReset
    rwa [State.noReset, ← hf.pins] at pins_left

/-- R93, R97: with both lines done, COMBINE makes `compress(h, X)` of the registers that the invariant describes. -/
theorem compressed_of_joined (hs : Compressing t h X b s) (hl : s.jL = 80) (hr : s.jR = 80) :
    step s = .next (combine s.dropPins) ∧ Compressed t h X b (combine s.dropPins) := by
  refine ⟨hs.step_eq.trans (microStep_joined hl hr), rfl, ?_, hs.X_eq, rfl, hs.EBS_eq, ?_⟩
  · obtain ⟨-, -, -, hL, hR⟩ := hs.midway
    show recombine s.h s.L s.R = compress t h X
    rw [hL, hR, hl, hr, hs.h_eq, hs.X_eq]
    rfl
  · obtain ⟨-, ⟨hE, -⟩, -⟩ := hs.inv
    exact hE

/-! Its steps. -/

/-- `n` steps lead from `s` to `s'`, and `P` holds of every state before `s'`. -/
def runsTo (P : State → Prop) (n : Nat) (s s' : State) : Prop :=
  steps n s = .next s' ∧ ∀ m, m < n → ∃ u, steps m s = .next u ∧ P u

theorem runsTo_zero (P : State → Prop) (s : State) : runsTo P 0 s s :=
  ⟨rfl, fun _ hm => absurd hm (Nat.not_lt_zero _)⟩

theorem runsTo_succ {P : State → Prop} {n : Nat} {u s' : State} (hs : P s) (hstep : step s = .next u)
    (hrun : runsTo P n u s') : runsTo P (n + 1) s s' := by
  obtain ⟨hend, hbefore⟩ := hrun
  refine ⟨(steps_succ hstep).trans hend, fun m hm => ?_⟩
  cases m with
  | zero => exact ⟨s, rfl, hs⟩
  | succ m =>
    rw [steps_succ hstep]
    exact hbefore m (by omega)

/-- R98, R99: the `d` rounds that are left are taken one or two a step, and COMBINE ends the compression. Induction on
the rounds left. -/
theorem compressing_finishes {d : Nat} (hs : Compressing t h X b s) (hd : s.roundsTaken + d = 160) :
    ∃ n s', runsTo (Compressing t h X b) n s s' ∧ Compressed t h X b s' ∧ n ≤ d + 1 ∧ d + 2 ≤ 2 * n := by
  induction d using Nat.strong_induction_on generalizing s with
  | _ d ih =>
    by_cases hj : s.jL = 80 ∧ s.jR = 80
    · obtain ⟨hstep, hdone⟩ := compressed_of_joined hs hj.1 hj.2
      have none_left : d = 0 := by simpa [State.roundsTaken, hj.1, hj.2] using hd
      exact ⟨1, _, runsTo_succ hs hstep (runsTo_zero _ _), hdone, by omega, by omega⟩
    · obtain ⟨u, hu⟩ := microStep_answers s.dropPins
      have hstep := hs.step_eq.trans hu
      obtain ⟨hs', hadv⟩ := compressing_of_step hs hj hstep
      obtain ⟨more, at_most_two⟩ := roundsTaken_of_advances hadv
      have in_range := roundsTaken_le hs'.midway
      obtain ⟨n, s', hrun, hdone, hle, hge⟩ := ih (160 - u.roundsTaken) (by omega) hs' (by omega)
      exact ⟨n + 1, s', runsTo_succ hs hstep hrun, hdone, by omega, by omega⟩

end

/-! The command. -/

theorem decodeCmd_compress {w : BitVec 34} (h : cmdOp w = 3) : decodeCmd w = .compress (cmdData w) := by
  simp [decodeCmd, h]

/-- R63, R88: an accepted COMPRESS with a full block begins the compression, no round of it taken. -/
theorem compressing_of_command {t : Tables} {s : State} (hi : s.Inv t) (hp : s.phase = .idle) (hw : s.wcnt = 16)
    (hn : s.noReset) (hc : cmdOp s.nextPins.cmd = 3) :
    step s = .next (seed s.dropPins) ∧ Compressing t s.h s.X s.EBS (seed s.dropPins) := by
  have hstep : step s = .next (seed s.dropPins) := by
    rw [step_idle (nextPins_rst_of_noReset hn) hp, decodeCmd_compress hc, ← compressEffect_full (s := s.dropPins) hw]
    exact accept_idle (s := s.dropPins) hp compressEffect
  exact ⟨hstep, stepKeepsInvariant t _ _ hi hstep, rfl, noReset_dropPins hn, rfl, rfl, rfl⟩

/-- Settles O51: SEED in one step, then the 160 rounds and COMBINE in 81 to 161. -/
theorem compressCommandComputes : Obligations.CompressCommandComputes := by
  intro t s hi hp hw hn hc
  obtain ⟨hstep, hs⟩ := compressing_of_command hi hp hw hn hc
  obtain ⟨n, s', ⟨hend, hbefore⟩, done, hle, hge⟩ := compressing_finishes hs (d := 160) rfl
  refine ⟨n + 1, s', by omega, by omega, (steps_succ hstep).trans hend, done.idle, done.h_eq, done.wcnt_eq,
    done.EBS_eq, done.ERI_eq, fun m hpos hm => ?_⟩
  obtain ⟨k, rfl⟩ : ∃ k, m = k + 1 := ⟨m - 1, by omega⟩
  obtain ⟨u, hu, hc⟩ := hbefore k (by omega)
  exact ⟨u, (steps_succ hstep).trans hu, hc.run, by simp [State.ready, hc.run], hc.digest_eq rfl⟩

end Sys2Proof.Machine
end

section
/-! SUPPORT. The statements about the four host commands and their acceptance (40_commands.md). -/

namespace Sys2Proof.Machine

/-! Acceptance. -/

/-- All that a command can do, whether it is accepted or not. -/
theorem exec_decodeCmd_cases {w : BitVec 34} {s s' : State} (h : exec (decodeCmd w) s = .next s') :
    s' = s ∨ (s.phase = .idle ∧ cmdOp w = 1 ∧ s' = initEffect s) ∨
    (s.phase = .idle ∧ cmdOp w = 2 ∧ s' = pushEffect (cmdData w) s) ∨
    (s.phase = .idle ∧ cmdOp w = 3 ∧ s' = compressEffect s) := by
  have of_accept {e : State → State} (ha : accept s e = .next s') : s' = s ∨ (s.phase = .idle ∧ s' = e s) := by
    by_cases hp : s.phase = .idle
    · exact .inr ⟨hp, (Host.Outcome.next.inj ((accept_idle hp e).symm.trans ha)).symm⟩
    · exact .inl (Host.Outcome.next.inj ((accept_not_idle hp e).symm.trans ha)).symm
  rcases decodeCmd_cases w with ⟨-, hd⟩ | ⟨ho, hd⟩ | ⟨ho, hd⟩ | ⟨ho, hd⟩ <;> rw [hd] at h
  · exact .inl (Host.Outcome.next.inj h).symm
  · exact (of_accept h).imp_right fun ⟨hp, he⟩ => .inl ⟨hp, ho, he⟩
  · exact (of_accept h).imp_right fun ⟨hp, he⟩ => .inr (.inl ⟨hp, ho, he⟩)
  · exact (of_accept h).imp_right fun ⟨hp, he⟩ => .inr (.inr ⟨hp, ho, he⟩)

theorem exec_decodeCmd_not_idle (w : BitVec 34) {s : State} (hp : s.phase ≠ .idle) :
    exec (decodeCmd w) s = .next s := by
  obtain ⟨s', h⟩ := exec_answers (decodeCmd w) s
  rcases exec_decodeCmd_cases h with rfl | ⟨hi, -⟩ | ⟨hi, -⟩ | ⟨hi, -⟩
  · exact h
  · exact absurd hi hp
  · exact absurd hi hp
  · exact absurd hi hp

/-- Outside IDLE a step reads of the pins at the coming edge only RST. -/
theorem step_eq_of_not_idle {s u : State} (hp : s.phase ≠ .idle) (hrst : u.nextPins.rst = s.nextPins.rst)
    (hdrop : u.dropPins = s.dropPins) : step u = step s := by
  have hphase : u.phase = s.phase := by simpa using congrArg State.phase hdrop
  cases hr : s.nextPins.rst with
  | true => rw [step_reset hr, step_reset (hrst.trans hr), hdrop]
  | false =>
    cases hph : s.phase with
    | idle => exact absurd hph hp
    | run => rw [step_run hr hph, step_run (hrst.trans hr) (hphase.trans hph), hdrop]
    | halt => rw [step_halt hr hph, step_halt (hrst.trans hr) (hphase.trans hph), hdrop]

/-- Settles O29: no command has an effect outside IDLE, no step outside IDLE reads CMD, and a step in IDLE is the
command. -/
theorem acceptanceRule : Obligations.AcceptanceRule :=
  ⟨fun w _ hp => exec_decodeCmd_not_idle w hp, fun _ _ hp => step_eq_of_not_idle hp rfl rfl,
    fun _ hp hr => step_idle hr hp⟩

/-- Settles O31. -/
theorem stepRunsAcceptedCommand : Obligations.StepRunsAcceptedCommand := by
  rintro s _ hp hr rfl
  exact step_idle hr hp

/-! The frame. -/

@[simp] theorem pushEffect_L (d : Word) (s : State) : (pushEffect d s).L = s.L := by
  unfold pushEffect; split <;> rfl
@[simp] theorem pushEffect_R (d : Word) (s : State) : (pushEffect d s).R = s.R := by
  unfold pushEffect; split <;> rfl
@[simp] theorem pushEffect_jL (d : Word) (s : State) : (pushEffect d s).jL = s.jL := by
  unfold pushEffect; split <;> rfl
@[simp] theorem pushEffect_jR (d : Word) (s : State) : (pushEffect d s).jR = s.jR := by
  unfold pushEffect; split <;> rfl
@[simp] theorem pushEffect_pins (d : Word) (s : State) : (pushEffect d s).pins = s.pins := by
  unfold pushEffect; split <;> rfl
@[simp] theorem pushEffect_sched (d : Word) (s : State) : (pushEffect d s).sched = s.sched := by
  unfold pushEffect; split <;> rfl
@[simp] theorem pushEffect_grant (d : Word) (s : State) : (pushEffect d s).grant = s.grant := by
  unfold pushEffect; split <;> rfl
@[simp] theorem pushEffect_draws (d : Word) (s : State) : (pushEffect d s).draws = s.draws := by
  unfold pushEffect; split <;> rfl

@[simp] theorem compressEffect_pins (s : State) : (compressEffect s).pins = s.pins := by
  unfold compressEffect; split <;> rfl
@[simp] theorem compressEffect_sched (s : State) : (compressEffect s).sched = s.sched := by
  unfold compressEffect; split <;> rfl
@[simp] theorem compressEffect_grant (s : State) : (compressEffect s).grant = s.grant := by
  unfold compressEffect; split <;> rfl
@[simp] theorem compressEffect_draws (s : State) : (compressEffect s).draws = s.draws := by
  unfold compressEffect; split <;> rfl

/-- R34: PUSH writes no block word but the one at `wcnt`. -/
theorem pushEffect_X_other (d : Word) (s : State) (i : Fin 16) (hi : i.val ≠ s.wcnt.toNat) :
    (pushEffect d s).X[i] = s.X[i] := by
  rw [pushEffect_X]
  split
  · simp [hi.symm]
  · rfl

/-- Settles O30: by what a command can do; each effect has its own writes. -/
theorem commandFrame : Obligations.CommandFrame := by
  intro w s s' h
  rcases exec_decodeCmd_cases h with rfl | ⟨-, ho, rfl⟩ | ⟨-, ho, rfl⟩ | ⟨-, ho, rfl⟩
  · simp
  · simp [ho]
  · simpa [ho] using pushEffect_X_other (cmdData w) s
  · simp [ho]

/-! The single commands. -/

/-- Settles O24. -/
theorem nopRule : Obligations.NopRule := ⟨by decide, fun _ _ => rfl⟩

/-- Settles O25: accepted or not; and the reset state is what INIT makes of it. -/
theorem initRule : Obligations.InitRule :=
  ⟨by decide, fun _ _ hp => accept_idle hp _, fun _ _ hp => accept_not_idle hp _,
    fun _ => accept_idle (s := State.reset) rfl initEffect⟩

/-- Settles O26: accepted or not, and with or without room in the buffer. -/
theorem pushRule : Obligations.PushRule := by
  refine ⟨fun d => Except.ok.inj (decode_encode (.push d)), fun d s hp hw => ?_, fun d s hp hw => ?_,
    fun d s hp => accept_not_idle hp _⟩
  · have effect := accept_idle hp (pushEffect d)
    rwa [pushEffect_room hw] at effect
  · have effect := accept_idle hp (pushEffect d)
    rwa [pushEffect_full (by omega)] at effect

end Sys2Proof.Machine
end

section
/-! SUPPORT. The statements about the five combinators and their selection (41_round_function_selector.md). -/

namespace Sys2Proof.Machine

/-! The combinators bit by bit (R68 to R72). -/

@[simp] theorem getElem_F0 (x y z : Word) {i : Nat} (hi : i < 32) :
    (F0 x y z)[i] = ((x[i] ^^ y[i]) ^^ z[i]) := by
  simp [F0]

/-- In F1, `x` selects. -/
@[simp] theorem getElem_F1 (x y z : Word) {i : Nat} (hi : i < 32) :
    (F1 x y z)[i] = if x[i] then y[i] else z[i] := by
  cases hx : x[i] <;> simp [F1, hx]

/-- In F2, `z` is inverted where `x` is 1 or `y` is 0. -/
@[simp] theorem getElem_F2 (x y z : Word) {i : Nat} (hi : i < 32) :
    (F2 x y z)[i] = if x[i] || !y[i] then !z[i] else z[i] := by
  cases h : (x[i] || !y[i]) <;> simp [F2, h]

/-- F3 is F1 with the selecting argument last. -/
theorem F3_eq_F1 (x y z : Word) : F3 x y z = F1 z x y := by
  rw [F3, F1, BitVec.and_comm x z, BitVec.and_comm y (~~~z)]

/-- F4 is F2 with the inverted argument first. -/
theorem F4_eq_F2 (x y z : Word) : F4 x y z = F2 y z x := BitVec.xor_comm _ _

/-- In F3, `z` selects. -/
@[simp] theorem getElem_F3 (x y z : Word) {i : Nat} (hi : i < 32) :
    (F3 x y z)[i] = if z[i] then x[i] else y[i] := by
  rw [F3_eq_F1, getElem_F1]

/-- In F4, `x` is inverted where `y` is 1 or `z` is 0. -/
@[simp] theorem getElem_F4 (x y z : Word) {i : Nat} (hi : i < 32) :
    (F4 x y z)[i] = if y[i] || !z[i] then !x[i] else x[i] := by
  rw [F4_eq_F2, getElem_F2]

/-! The truth tables (R76). -/

/-- The row of a truth table with the inputs `a`, `b`, `c`. -/
def truthRow (a b c : Bool) : Nat := 4 * a.toNat + 2 * b.toNat + c.toNat

/-- The columns hold, row by row, the readings bit by bit of R68 to R72. -/
theorem columns_eq : ∀ a b c : Bool,
    (0b10010110#8).getLsbD (truthRow a b c) = ((a ^^ b) ^^ c) ∧
    (0b11001010#8).getLsbD (truthRow a b c) = (if a then b else c) ∧
    (0b01011001#8).getLsbD (truthRow a b c) = (if a || !b then !c else c) ∧
    (0b11100100#8).getLsbD (truthRow a b c) = (if c then a else b) ∧
    (0b00101101#8).getLsbD (truthRow a b c) = (if b || !c then !a else a) := by
  decide

/-- R76's test words put every row of the truth table into every byte, so the five results there differ. -/
theorem combinator_injective : Function.Injective combinator := by
  have differ : ∀ a b : Fin 5, combinator a 0x0F0F0F0F 0x33333333 0x55555555 =
      combinator b 0x0F0F0F0F 0x33333333 0x55555555 → a = b := by decide
  exact fun a b h => differ a b (by rw [h])

/-- Settles O8: bit by bit the columns, and one point where all five results differ. -/
theorem combinatorTruthTables : Obligations.CombinatorTruthTables := by
  refine ⟨fun x y z i hi => ?_, fun _ _ h => combinator_injective h⟩
  simp only [BitVec.getLsbD_eq_getElem hi]
  obtain ⟨column0, column1, column2, column3, column4⟩ := columns_eq x[i] y[i] z[i]
  exact ⟨(getElem_F0 x y z hi).trans column0.symm, (getElem_F1 x y z hi).trans column1.symm,
    (getElem_F2 x y z hi).trans column2.symm, (getElem_F3 x y z hi).trans column3.symm,
    (getElem_F4 x y z hi).trans column4.symm⟩

/-! The corner cases of R68 to R72. -/

theorem F0_self_left (x z : Word) : F0 x x z = z := by simp [F0]

theorem F0_swap_left (x y z : Word) : F0 x y z = F0 y x z := by rw [F0, F0, BitVec.xor_comm x y]

theorem F0_swap_right (x y z : Word) : F0 x y z = F0 x z y := by
  rw [F0, F0, BitVec.xor_assoc, BitVec.xor_comm y z, ← BitVec.xor_assoc]

theorem F1_zero (y z : Word) : F1 0 y z = z := by
  ext i hi
  simp

theorem F1_allOnes (y z : Word) : F1 (BitVec.allOnes 32) y z = y := by
  ext i hi
  rw [getElem_F1 _ y z hi, BitVec.getElem_allOnes, if_pos rfl]

theorem F1_same (x y : Word) : F1 x y y = y := by
  ext i hi
  simp

/-- The two terms of F1 have no bit in common. -/
theorem F1_terms_disjoint (x y z : Word) : (x &&& y) &&& (~~~x &&& z) = 0#32 := by
  ext i hi
  cases hx : x[i] <;> simp [hx]

theorem F1_eq_add (x y z : Word) : F1 x y z = (x &&& y) + (~~~x &&& z) :=
  (BitVec.add_eq_or_of_and_eq_zero _ _ (F1_terms_disjoint x y z)).symm

theorem F1_eq_xor (x y z : Word) : F1 x y z = (x &&& y) ^^^ (~~~x &&& z) := by
  ext i hi
  cases hx : x[i] <;> simp [hx]

theorem F2_zero_middle (x z : Word) : F2 x 0 z = ~~~z := by
  ext i hi
  simp

theorem F2_zero_allOnes (z : Word) : F2 0 (BitVec.allOnes 32) z = z := by
  ext i hi
  rw [getElem_F2 0 _ z hi, BitVec.getElem_allOnes]
  simp

/-! The band of a round and the combinator of a line (R67, R73, R74). -/

/-- R67: the band is the upper three bits of the 7-bit round number. -/
theorem ofNat_band (j : Fin 80) :
    BitVec.ofNat 3 (band j).val = (BitVec.ofNat 7 j.val).extractLsb' 4 3 := by
  apply BitVec.eq_of_toNat_eq
  simp [band, Nat.shiftRight_eq_div_pow]
  omega

theorem roundFunction_eq_iff (j : Fin 80) (f : BitVec 3) : roundFunction j = f ↔ j.val / 16 = f.toNat := by
  rw [← BitVec.toNat_inj, roundFunction, BitVec.toNat_ofNat, Nat.mod_eq_of_lt (by omega)]
  rfl

/-- The rounds of the left line that use the combinator number `f`. -/
theorem roundFsel_left_eq_iff (j : Fin 80) (f : BitVec 3) : roundFsel .left j = f ↔ j.val / 16 = f.toNat :=
  roundFunction_eq_iff j f

/-- The rounds of the right line that use the combinator number `f`. -/
theorem roundFsel_right_eq_iff (j : Fin 80) (f : BitVec 3) :
    roundFsel .right j = f ↔ (79 - j.val) / 16 = f.toNat :=
  roundFunction_eq_iff _ f

/-- R74: mirroring the round counts the bands from the other end. -/
theorem band_mirror (j : Fin 80) : (band ⟨79 - j.val, by omega⟩).val = 4 - (band j).val := by
  simp only [band]
  omega

theorem roundFsel_right (j : Fin 80) : roundFsel .right j = BitVec.ofNat 3 (4 - (band j).val) :=
  congrArg (BitVec.ofNat 3) (band_mirror j)

/-- Settles O7: F3 and F4 inherit the corner cases of F1 and F2, the words are the encodings of the five rounds, and a
selector names the band its line counts. -/
theorem combinatorRules : Obligations.CombinatorRules := by
  refine ⟨fun x y z => ?_, fun x y z i hi => ?_, by decide, fun r s => ?_, fun j => ?_⟩
  · have ones : (0xFFFFFFFF : Word) = BitVec.allOnes 32 := rfl
    simp only [ones]
    exact ⟨rfl, rfl, rfl, rfl, rfl, F3_eq_F1 x y z, F4_eq_F2 x y z, F0_self_left x z, F1_zero y z, F1_allOnes y z,
      F1_same x y, F1_eq_xor x y z, F1_eq_add x y z, F2_zero_middle x z, F2_zero_allOnes z,
      (F3_eq_F1 x y _).trans (F1_zero x y), (F3_eq_F1 x y _).trans (F1_allOnes x y),
      (F3_eq_F1 x x z).trans (F1_same z x), (F4_eq_F2 x y _).trans (F2_zero_middle y x),
      (F4_eq_F2 x _ _).trans (F2_zero_allOnes x), F0_swap_left x y z, F0_swap_right x y z⟩
  · simp only [BitVec.getLsbD_eq_getElem hi]
    exact ⟨getElem_F0 x y z hi, getElem_F1 x y z hi, getElem_F2 x y z hi, getElem_F3 x y z hi, getElem_F4 x y z hi⟩
  · exact ⟨decode_encode (.rndF0 r s), decode_encode (.rndF1 r s), decode_encode (.rndF2 r s),
      decode_encode (.rndF3 r s), decode_encode (.rndF4 r s)⟩
  · simp only [roundFsel_left_eq_iff, roundFsel_right_eq_iff, BitVec.reduceToNat]
    omega

/-! The schedule ROM's selectors, and what the right line looks up at `j` (R73, R74). -/

/-- R84: the image is the supplied tables, packed. -/
theorem packRom_suppliedTables : packRom suppliedTables = romImage := by decide

@[simp] theorem cwFsel_controlWord (t : Tables) (l : Line) (j : Fin 80) :
    cwFsel (controlWord t l j) = roundFsel l j := cwFsel_packCw _ _ _

@[simp] theorem cwR_controlWord (t : Tables) (l : Line) (j : Fin 80) :
    cwR (controlWord t l j) = messageIndex t l j := cwR_packCw _ _ _

@[simp] theorem cwS_controlWord (t : Tables) (l : Line) (j : Fin 80) :
    cwS (controlWord t l j) = rotationAmount t l j := cwS_packCw _ _ _

theorem cwFsel_romImage (l : Line) (j : Fin 80) : cwFsel (romRead romImage l j) = roundFsel l j := by
  rw [← packRom_suppliedTables, romRead_packRom, cwFsel_controlWord]

/-- Settles O9: the image holds the packed selectors, and the mirrored round lies in the band counted from the other
end. -/
theorem bandsAndMirroring : Obligations.BandsAndMirroring := by
  refine ⟨fun j => ?_, fun t j => ?_, fun j => ?_⟩
  · exact ⟨cwFsel_romImage .left j, (cwFsel_romImage .right j).trans (roundFsel_right j)⟩
  · exact ⟨cwR_controlWord t .right j, cwS_controlWord t .right j, rfl⟩
  · exact ⟨rfl, ofNat_band j, rfl, rfl, rfl, band_mirror j, roundFsel_right j⟩

end Sys2Proof.Machine
end

section
/-! SUPPORT. The statements about the round tables (42_round_tables.md). The assumptions of TABLES are checks on lists;
here each is read as a property of the function by which a band reads the block words. -/

namespace Sys2Proof.Machine

/-! The reading order of a band, and the lists that the assumptions check. -/

/-- R77, R67: the block word that a line's band (the pair `a`) reads in each of its sixteen rounds. -/
def bandOrder (t : Tables) (a : Line × Fin 5) (j : Fin 16) : BitVec 4 :=
  messageIndex t a.1 ⟨16 * a.2.val + j.val, by omega⟩

/-- The entries of a band are those at rounds `16 * b` to `16 * b + 15`. -/
theorem bandEntries_eq_ofFn (v : Vector (BitVec 4) 80) (b : Fin 5) :
    bandEntries v b.val = List.ofFn fun j : Fin 16 => v[16 * b.val + j.val] :=
  List.ext_getElem
    (by simp only [bandEntries, List.length_take, List.length_drop, Vector.length_toList, List.length_ofFn]; omega)
    fun n _ _ => by rw [List.getElem_ofFn]; simp [bandEntries]

theorem bandEntries_left (t : Tables) (b : Fin 5) :
    bandEntries t.msgLeft b.val = List.ofFn (bandOrder t (.left, b)) := bandEntries_eq_ofFn _ b

theorem bandEntries_right (t : Tables) (b : Fin 5) :
    bandEntries t.msgRight b.val = List.ofFn (bandOrder t (.right, b)) := bandEntries_eq_ofFn _ b

/-! One reading per check. -/

theorem bandsArePermutations_iff (v : Vector (BitVec 4) 80) :
    bandsArePermutations v = true ↔ ∀ b : Fin 5, (bandEntries v b.val).Nodup := by
  simp [bandsArePermutations, Fin.forall_iff]

theorem startsWithIdentity_iff (t : Tables) :
    startsWithIdentity t.msgLeft = true ↔ ∀ j, bandOrder t (.left, 0) j = BitVec.ofNat 4 j.val := by
  have identity : (List.range 16).map (BitVec.ofNat 4) = List.ofFn fun j : Fin 16 => BitVec.ofNat 4 j.val := by decide
  rw [startsWithIdentity, beq_iff_eq, identity, ← funext_iff]
  exact (bandEntries_left t 0).congr_left.trans List.ofFn_inj

/-- That the list of all ten bands has no duplicate says that a band is determined by its reading order. -/
theorem bandOrder_injective_of_bandsAreDistinct {t : Tables} (h : bandsAreDistinct t.msgLeft t.msgRight = true) :
    Function.Injective (bandOrder t) := by
  obtain ⟨hl, hr, hlr⟩ := List.nodup_append.mp (of_decide_eq_true h)
  have mem (b : Fin 5) : b.val ∈ List.range 5 := List.mem_range.mpr b.isLt
  have cross (b c : Fin 5) : bandOrder t (.left, b) ≠ bandOrder t (.right, c) := fun e =>
    hlr _ (List.mem_map_of_mem (mem b)) _ (List.mem_map_of_mem (mem c))
      (by rw [bandEntries_left, bandEntries_right, e])
  rintro ⟨_ | _, b⟩ ⟨_ | _, c⟩ e
  · exact congrArg _ (Fin.ext (List.inj_on_of_nodup_map hl (mem b) (mem c)
      (by rw [bandEntries_left, bandEntries_left, e])))
  · exact absurd e (cross b c)
  · exact absurd e.symm (cross c b)
  · exact congrArg _ (Fin.ext (List.inj_on_of_nodup_map hr (mem b) (mem c)
      (by rw [bandEntries_right, bandEntries_right, e])))

theorem amountsInRange_getElem {v : Vector (BitVec 4) 80} (h : amountsInRange v = true) (j : Fin 80) :
    5 ≤ v[j].toNat ∧ v[j].toNat ≠ 10 := by
  have entry := List.all_eq_true.mp h v[j] (by simp)
  simpa using entry

/-! What the assumptions together give of any TABLES (R85, R86). -/

section
variable {t : Tables} (h : t.wf = true)
include h

/-- The six checks, by name. -/
theorem checks_of_wf :
    bandsArePermutations t.msgLeft = true ∧ bandsArePermutations t.msgRight = true ∧
      startsWithIdentity t.msgLeft = true ∧ bandsAreDistinct t.msgLeft t.msgRight = true ∧
      amountsInRange t.rotLeft = true ∧ amountsInRange t.rotRight = true := by
  simpa [Tables.wf, and_assoc] using h

/-- R85 fact 2: no band reads a block word twice. -/
theorem injective_bandOrder_band (a : Line × Fin 5) : Function.Injective (bandOrder t a) := by
  obtain ⟨hl, hr, -⟩ := checks_of_wf h
  rw [← List.nodup_ofFn]
  match a with
  | (.left, b) => exact bandEntries_left t b ▸ (bandsArePermutations_iff _).mp hl b
  | (.right, b) => exact bandEntries_right t b ▸ (bandsArePermutations_iff _).mp hr b

/-- R85 fact 2, R33: a band has as many rounds as the block has words, so it reads every word. -/
theorem bijective_bandOrder_band (a : Line × Fin 5) : Function.Bijective (bandOrder t a) := by
  have toFin : Function.Bijective (BitVec.equivFin ∘ bandOrder t a) :=
    Finite.injective_iff_bijective.mp (BitVec.equivFin.injective.comp (injective_bandOrder_band h a))
  exact (Function.Bijective.of_comp_iff' BitVec.equivFin.bijective _).mp toFin

/-- R78: left band 0 reads the words in order. -/
theorem bandOrder_left_zero (j : Fin 16) : bandOrder t (.left, 0) j = BitVec.ofNat 4 j.val := by
  obtain ⟨-, -, hid, -⟩ := checks_of_wf h
  exact (startsWithIdentity_iff t).mp hid j

/-- R85 fact 2: the ten bands read in ten orders. -/
theorem injective_bandOrder : Function.Injective (bandOrder t) := by
  obtain ⟨-, -, -, hd, -⟩ := checks_of_wf h
  exact bandOrder_injective_of_bandsAreDistinct hd

/-- R85 fact 3, on either line. -/
theorem rotationAmount_range (l : Line) (j : Fin 80) :
    5 ≤ (rotationAmount t l j).toNat ∧ (rotationAmount t l j).toNat ≠ 10 := by
  obtain ⟨-, -, -, -, hl, hr⟩ := checks_of_wf h
  cases l with
  | left => exact amountsInRange_getElem hl j
  | right => exact amountsInRange_getElem hr j

end

/-- Settles O53: each band's reading order is a bijection onto the block words, and a band is determined by its order,
so only left band 0 can read them in order. -/
theorem tablesAssumptions : Obligations.TablesAssumptions := by
  intro t h
  have band0 (j : Fin 16) := bandOrder_left_zero h j
  have distinct {a b : Line × Fin 5} (e : ∀ j, bandOrder t a j = bandOrder t b j) : a = b :=
    injective_bandOrder h (funext e)
  refine ⟨fun l b i => (bijective_bandOrder_band h (l, b)).existsUnique i, fun j => ?_,
    fun a ha => distinct fun j => (ha j).trans (band0 j).symm, fun a b e => distinct e, rotationAmount_range h⟩
  simpa [bandOrder] using band0 j

/-! The supplied tables and the constants (R78 to R81). -/

theorem wf_suppliedTables : suppliedTables.wf = true := by decide

/-- R85 fact 4: of the ten constants only 0 occurs twice. -/
theorem eq_or_krom_eq_zero {l l' : Line} {b b' : Fin 5} (e : krom l b = krom l' b') :
    (l, b) = (l', b') ∨ krom l b = 0 := by
  cases l <;> cases l' <;> revert b b' <;> decide

/-- Settles O12: what holds of any TABLES that meets the assumptions, read at the supplied ones. -/
theorem tableFacts : Obligations.TableFacts := by
  obtain ⟨-, identity, -, distinct, amounts⟩ := tablesAssumptions suppliedTables wf_suppliedTables
  refine ⟨wf_suppliedTables, fun l j e => ?_, identity, distinct, fun _ _ => eq_or_krom_eq_zero, rfl⟩
  exact (amounts l j).2 (by rw [e]; rfl)

/-- Settles O10: the lookup is by the band of `j` on both lines, and the ten constants are the literals. -/
theorem roundConstants : Obligations.RoundConstants := ⟨fun _ _ => rfl, by decide, by decide⟩

/-! The schedule ROM (R84). -/

/-- R53, R73: the packed control words have the selectors of their rounds, and those are none of the reserved ones. -/
theorem wf_packRom (t : Tables) : (packRom t).wf = true := by
  simp [Rom.wf, packRom, Vector.toList_ofFn, roundFsel_le]

/-- Settles O11: the image is the packed supplied tables, and no packed ROM holds a reserved selector. -/
theorem romImageIsPackedTables : Obligations.RomImageIsPackedTables :=
  ⟨packRom_suppliedTables, packRom_suppliedTables ▸ wf_packRom suppliedTables⟩

end Sys2Proof.Machine
end

section
/-! SUPPORT. The statements about the micro-operations and the control transfer of one compression
(43_compression_step.md). -/

namespace Sys2Proof.Machine

/-! The end of a compression (R97 to R99). -/

/-- STATUS is one value throughout a compression: the block is full, BUSY is 1, ERI is 0 and EBS as at SEED. -/
theorem Compressing.status_eq {t : Tables} {h : StateWords} {X : Vector Word 16} {b : Bool} {s u : State}
    (hs : Compressing t h X b s) (hu : Compressing t h X b u) : s.status = u.status := by
  have fields {v : State} (hv : Compressing t h X b v) :
      v.status = ((BitVec.ofBool false ++ BitVec.ofBool b) ++ BitVec.ofBool true) ++ 16#5 := by
    obtain ⟨-, ⟨hE, -⟩, -⟩ := hv.inv
    obtain ⟨hw, -⟩ := hv.midway
    rw [State.status, State.busy, hE, hv.EBS_eq, hv.run, hw]
    rfl
  rw [fields hs, fields hu]

/-- Settles O50: the state is one of a compression, with 160 less the counters as the rounds left. -/
theorem compressionFinishes : Obligations.CompressionFinishes := by
  intro t s hi hp hn
  have hs : Compressing t s.h s.X s.EBS s := ⟨hi, hp, hn, rfl, rfl, rfl⟩
  have in_range := roundsTaken_le hs.midway
  obtain ⟨n, s', ⟨hend, hbefore⟩, done, hle, hge⟩ :=
    compressing_finishes hs (d := 160 - s.roundsTaken) (by omega)
  unfold State.roundsTaken at in_range hle hge
  refine ⟨n, s', hend, by omega, by omega, done.idle, done.h_eq, done.wcnt_eq, done.X_eq, done.EBS_eq, done.ERI_eq,
    fun m hm => ?_⟩
  obtain ⟨u, hu, hc⟩ := hbefore m hm
  exact ⟨u, hu, hc.run, hc.digest_eq rfl, hc.status_eq hs⟩

/-! The control words. -/

/-- `runRound_enabled` where the granted line is named. -/
theorem runRound_granted {s : State} {l : Line} (hg : s.grant = l) (f : Word → Word → Word → Word) (r sh : BitVec 4)
    (h : s.roundEnabled l) :
    runRound f r sh s = .next (s.setLine l
      (roundStep (s.regs l) f (memRead s r) (roundConstant l ⟨(s.ctr l).toNat, roundEnabled_lt h⟩) sh.toNat)
      (s.ctr l + 1)) := by
  subst hg
  exact runRound_enabled f r sh h

/-- Settles O13. -/
theorem roundStepRule : Obligations.RoundStepRule := fun _ _ _ _ _ _ _ _ _ => rfl

/-- Settles O14: each control word is `runRound` with its combinator, on the left line and on the right. -/
theorem controlWordsExecute : Obligations.ControlWordsExecute := by
  intro s r sh hp hL hR
  constructor
  · intro hj hg
    have round (f : Word → Word → Word → Word) := runRound_granted hg f r sh (roundEnabled_of_le hp hj hR)
    exact ⟨round F0, round F1, round F2, round F3, round F4⟩
  · intro hj hg
    have round (f : Word → Word → Word → Word) := runRound_granted hg f r sh (roundEnabled_of_le hp hj hL)
    exact ⟨round F0, round F1, round F2, round F3, round F4⟩

theorem not_overrun_iff {s : State} : ¬ s.overrun ↔ s.jL.toNat ≤ 80 ∧ s.jR.toNat ≤ 80 := by
  unfold State.overrun
  omega

/-- Settles O15: FAULT in the first clause, and no round enabled in the other two. -/
theorem controlWordsNotEnabled : Obligations.ControlWordsNotEnabled := by
  intro w i s hi
  obtain ⟨n, -, hx⟩ := exec_decodeCw hi
  rw [hx]
  refine ⟨fun hp ho => runRound_overrun _ _ _ hp ho, fun hp hL hR hc => ?_, fun hp => runRound_not_run hp _ _ _⟩
  refine runRound_disabled _ _ _ (fun he => ?_) fun _ => not_overrun_iff.2 ⟨hL, hR⟩
  exact absurd hc (roundEnabled_lt he).ne

@[simp] theorem raiseInvalidRoundIndex_regs (s : State) (l : Line) : (raiseInvalidRoundIndex s).regs l = s.regs l := by
  cases l <;> rfl

@[simp] theorem raiseInvalidRoundIndex_ctr (s : State) (l : Line) : (raiseInvalidRoundIndex s).ctr l = s.ctr l := by
  cases l <;> rfl

/-- Settles O16: by what a round can do; FAULT, which alone writes ERI and the phase, needs a counter above 80. -/
theorem controlWordFrame : Obligations.ControlWordFrame := by
  intro w i s s' hi h
  obtain ⟨n, -, hexec⟩ := exec_decodeCw hi
  rw [hexec] at h
  rcases runRound_cases (combinator n) (cwR w) (cwS w) s with ⟨_, hx⟩ | ⟨_, ho, hx⟩ | ⟨_, _, hx⟩ <;>
    cases hx.symm.trans h
  · simp
  · have out_of_range (hL : s.jL.toNat ≤ 80) : ¬ s.jR.toNat ≤ 80 := fun hR => not_overrun_iff.2 ⟨hL, hR⟩ ho
    simp +contextual [out_of_range]
  · simp

/-! RND.L and RND.R. -/

/-- R58: a line at 80 waits. -/
theorem issueRound_done {s : State} {l : Line} (hc : s.ctr l = 80) (ho : (s.ctr (otherLine l)).toNat ≤ 80) :
    issueRound l s = .next s := by
  refine issueRound_disabled (fun he => ne_eighty (roundEnabled_lt he) hc) fun _ => not_overrun_iff.2 ?_
  have own : (s.ctr l).toNat ≤ 80 := (congrArg BitVec.toNat hc).le
  cases l with
  | left => exact ⟨own, ho⟩
  | right => exact ⟨ho, own⟩

/-- R53, R89, R90: a reserved selector, whatever the ROM, raises InvalidRoundIndex in place of the round. -/
theorem issueRound_reserved_fsel {s : State} {l : Line} (h : s.roundEnabled l) {w : BitVec 11}
    (hw : romRead s.rom l ⟨(s.ctr l).toNat, roundEnabled_lt h⟩ = w) (hf : 5 ≤ (cwFsel w).toNat) :
    issueRound l s = .next (raiseInvalidRoundIndex s) :=
  issueRound_reserved h (hw ▸ decodeCw_reserved hf)

/-- R74, R97: on the right line the combinator of `4 - band(j)` is that of the mirrored round. -/
theorem lineCombinator_right (j : Fin 80) : lineCombinator .right j = band ⟨79 - j.val, by omega⟩ :=
  Fin.ext (band_mirror j).symm

/-- Settles O17: R97's round, the wait at 80, and the reserved selector. -/
theorem leftRoundRule : Obligations.LeftRoundRule :=
  ⟨fun _ _ hr hp hR => ⟨fun hj => issueRound_packed hr (roundEnabled_of_le (l := .left) hp hj hR),
      fun hc => issueRound_done hc hR⟩,
    fun _ hp hR hj hf => issueRound_reserved_fsel (roundEnabled_of_le hp hj hR) rfl hf⟩

/-- Settles O18: as on the left line; the combinator alone is mirrored. -/
theorem rightRoundRule : Obligations.RightRoundRule := by
  refine ⟨fun t s hr hp hL => ⟨fun hj => ?_, fun hc => issueRound_done hc hL⟩,
    fun _ hp hL hj hf => issueRound_reserved_fsel (roundEnabled_of_le hp hj hL) rfl hf⟩
  rw [← lineCombinator_right ⟨s.jR.toNat, hj⟩]
  exact issueRound_packed hr (roundEnabled_of_le (l := .right) hp hj hL)

/-! Two lines (R92, R98). -/

@[simp] theorem regs_granted (s : State) (g l : Line) : State.regs { s with grant := g } l = s.regs l := by
  cases l <;> rfl

@[simp] theorem ctr_granted (s : State) (g l : Line) : State.ctr { s with grant := g } l = s.ctr l := by
  cases l <;> rfl

/-- What an enabled round of a line writes to the line, with the combinator `n` and the operands of the word `w`. -/
def State.roundRegs (s : State) (l : Line) (h : s.roundEnabled l) (n : Fin 5) (w : BitVec 11) : LineRegs :=
  roundStep (s.regs l) (combinator n) (memRead s (cwR w)) (roundConstant l ⟨(s.ctr l).toNat, roundEnabled_lt h⟩)
    (cwS w).toNat

/-- R89, R90: an enabled round, whatever the ROM: the round of the word read, which is a legal one. -/
theorem issueRound_of_fsel {s : State} {l : Line} (h : s.roundEnabled l) {w : BitVec 11} {n : Fin 5}
    (hw : romRead s.rom l ⟨(s.ctr l).toNat, roundEnabled_lt h⟩ = w) (hn : (cwFsel w).toNat = n.val) :
    issueRound l s = .next ({ s with grant := l }.setLine l (s.roundRegs l h n w) (s.ctr l + 1)) := by
  subst hw
  obtain ⟨i, hi⟩ := (decodeCw_isOk_iff _).2 (hn ▸ n.is_le)
  obtain ⟨m, hm, hx⟩ := exec_decodeCw hi
  obtain rfl : m = n := Fin.ext (hm.symm.trans hn)
  rw [issueRound_ok h hi, hx, runRound_granted (s := { s with grant := l }) rfl _ _ _ h]
  cases l <;> rfl

/-- R92: what a round writes to its line is computed from that line's registers and counter and the block. -/
theorem roundRegs_congr {s u : State} {l : Line} (hs : s.roundEnabled l) (hu : u.roundEnabled l)
    (hregs : s.regs l = u.regs l) (hctr : s.ctr l = u.ctr l) (hX : s.X = u.X) (n : Fin 5) (w : BitVec 11) :
    s.roundRegs l hs n w = u.roundRegs l hu n w := by
  simp only [State.roundRegs, memRead, hregs, hctr, hX]

/-- Settles O19: both states read one control word, and either it is legal or its selector is reserved. -/
theorem linesAreIndependent : Obligations.LinesAreIndependent := by
  intro l s u hs hu hregs hctr hX hrom
  generalize hw : romRead s.rom l ⟨(s.ctr l).toNat, roundEnabled_lt hs⟩ = w
  have hwu : romRead u.rom l ⟨(u.ctr l).toNat, roundEnabled_lt hu⟩ = w := by
    simpa only [hctr, hrom] using hw
  by_cases reserved : 5 ≤ (cwFsel w).toNat
  · refine ⟨_, _, issueRound_reserved_fsel hs hw reserved, issueRound_reserved_fsel hu hwu reserved, ?_⟩
    simp [hregs, hctr, Nat.not_le_of_lt reserved]
  · obtain ⟨n, hn⟩ : ∃ n : Fin 5, (cwFsel w).toNat = n.val := ⟨⟨_, Nat.lt_of_not_le reserved⟩, rfl⟩
    refine ⟨_, _, issueRound_of_fsel hs hw hn, issueRound_of_fsel hu hwu hn, ?_⟩
    simp [hctr, roundRegs_congr hs hu hregs hctr hX, reserved]

/-- Settles O20: each line's round finds the registers, the counter, the block and the ROM that it reads unchanged. -/
theorem roundsCommute : Obligations.RoundsCommute := by
  intro t s hr hL hR
  have left_first := issueTurn_both (issueRound_packed hr hL)
  have right_first := issueTurn_both (issueRound_packed hr hR)
  refine ⟨_, _, left_first.trans (issueRound_packed (t := t) ?_ (roundEnabled_other hL hR _)),
    right_first.trans (issueRound_packed (t := t) ?_ (roundEnabled_other hR hL _)), rfl, rfl, rfl⟩
  · exact hr
  · exact hr

/-! COMBINE, FAULT and the transfer (R93, R95, R96, R99). -/

/-- Settles O21. -/
theorem combineRule : Obligations.CombineRule := fun _ hrst hp hL hR =>
  (step_run hrst hp).trans (microStep_joined hL hR)

/-- Settles O22. -/
theorem faultRule : Obligations.FaultRule := fun _ hrst hp ho =>
  (step_run hrst hp).trans (microStep_overrun ho)

/-- Settles O27. -/
theorem compressSeedsBothLines : Obligations.CompressSeedsBothLines := fun _ _ hp hw =>
  (accept_idle hp _).trans (congrArg _ (compressEffect_full hw))

/-- R96: the phase after a transition of RUN, with a packed ROM. -/
theorem microStep_phase {t : Tables} {s s' : State} (hrom : s.rom = packRom t) (hp : s.phase = .run)
    (h : microStep s = .next s') :
    s'.phase =
      if 80 < s.jL.toNat ∨ 80 < s.jR.toNat then .halt else if s.jL = 80 ∧ s.jR = 80 then .idle else .run := by
  by_cases ho : s.overrun
  · cases (microStep_overrun ho).symm.trans h
    exact (if_pos ho).symm
  · rw [if_neg (c := 80 < s.jL.toNat ∨ 80 < s.jR.toNat) ho]
    by_cases hj : s.jL = 80 ∧ s.jR = 80
    · cases (microStep_joined hj.1 hj.2).symm.trans h
      exact (if_pos hj).symm
    · obtain ⟨-, hp', -⟩ := microStep_inRange (e := s.ERI) ⟨hrom, hp, ho, rfl⟩ hj h
      rw [hp', if_neg hj]

/-- Settles O43: by the cases of a step; in RUN by `microStep_phase`. -/
theorem phaseTransfer : Obligations.PhaseTransfer := by
  intro t s s' hrom h
  rcases step_cases h with ⟨hr, rfl⟩ | ⟨hr, hp, hc, rfl⟩ | ⟨hr, hp, hc, rfl⟩ | ⟨hr, hp, hc, rfl⟩ | ⟨hr, hp, hc, rfl⟩ |
    ⟨hr, hp, hm⟩ | ⟨hr, hp, rfl⟩
  · simp [hr]
  · simp [hr, hp, hc]
  · simp [hr, hp, hc]
  · simp [hr, hp, hc]
  · simp [hr, hp, hc]
  · simp only [hr, hp]
    exact microStep_phase (s := s.dropPins) hrom hp hm
  · simp [hr, hp]

/-- Settles O44: one line's counter grows by one and the other's by one at most, and the state stays in range. -/
theorem runStepsAdvance : Obligations.RunStepsAdvance := by
  intro t s s' hrom h hrst hp hL hR hsum
  rw [step_run hrst hp] at h
  have hs : s.dropPins.inRange t s.ERI := ⟨hrom, hp, not_overrun_iff.2 ⟨hL, hR⟩, rfl⟩
  have hj : ¬ (s.jL = 80 ∧ s.jR = 80) := fun ⟨hl, hr⟩ => by simp [hl, hr] at hsum
  obtain ⟨-, -, ho, -⟩ := microStep_inRange hs hj h
  obtain ⟨hL', hR'⟩ := not_overrun_iff.1 ho
  obtain ⟨l, own, other⟩ := advances_microStep hs hj h
  cases l <;>
    simp only [ctr_left, ctr_right, otherLine_left, otherLine_right, dropPins_jL, dropPins_jR] at own other <;> omega

end Sys2Proof.Machine
end

section
/-! SUPPORT. The statements about the two errors (60_exceptions.md section 1): what raises InvalidBlockSize, and that
beside the two errors nothing is raised. -/

namespace Sys2Proof.Machine

/-! InvalidBlockSize (R101). -/

/-- A command that raises EBS is accepted, and its effect raises it. -/
theorem accept_raises_EBS {e : State → State} {s s' : State} (h : accept s e = .next s') (before : s.EBS = false)
    (after : s'.EBS = true) : s.phase = .idle ∧ (e s).EBS = true := by
  by_cases hp : s.phase = .idle
  · cases (accept_idle hp e).symm.trans h
    exact ⟨hp, after⟩
  · cases (accept_not_idle hp e).symm.trans h
    simp [before] at after

/-- R23, R101: the one instruction that raises EBS. The others keep it or, as INIT, clear it. -/
theorem exec_raises_EBS {i : Instr} {s s' : State} (h : exec i s = .next s') (before : s.EBS = false)
    (after : s'.EBS = true) : (∃ d, i = .compress d) ∧ s.phase = .idle ∧ s.wcnt ≠ 16 := by
  have not_kept : s'.EBS ≠ s.EBS := by simp [before, after]
  cases i with
  | nop _ => cases h; exact absurd rfl not_kept
  | init _ =>
    obtain ⟨-, raised⟩ := accept_raises_EBS h before after
    simp at raised
  | push _ =>
    obtain ⟨-, raised⟩ := accept_raises_EBS h before after
    simp [before] at raised
  | compress d =>
    obtain ⟨idle, raised⟩ := accept_raises_EBS h before after
    refine ⟨⟨d, rfl⟩, idle, fun full => ?_⟩
    simp [full, before] at raised
  | rndF0 _ _ => exact absurd (runRound_frame h).EBS not_kept
  | rndF1 _ _ => exact absurd (runRound_frame h).EBS not_kept
  | rndF2 _ _ => exact absurd (runRound_frame h).EBS not_kept
  | rndF3 _ _ => exact absurd (runRound_frame h).EBS not_kept
  | rndF4 _ _ => exact absurd (runRound_frame h).EBS not_kept

/-- Settles O28: the effect of an accepted COMPRESS that is not SEED, and by the cases of an instruction. -/
theorem invalidBlockSizeRule : Obligations.InvalidBlockSizeRule :=
  ⟨fun _ _ idle not_full => (accept_idle idle _).trans (congrArg _ (compressEffect_not_full not_full)),
    fun _ _ _ => exec_raises_EBS⟩

/-! Nothing else is raised (R100, R104). -/

theorem step_answers (s : State) : ∃ s', step s = .next s' := by
  cases hr : s.nextPins.rst with
  | true => exact ⟨_, step_reset hr⟩
  | false =>
    cases hp : s.phase with
    | idle => rw [step_idle hr hp]; exact exec_answers _ _
    | run => rw [step_run hr hp]; exact microStep_answers _
    | halt => exact ⟨_, step_halt hr hp⟩

/-- Settles O33. -/
theorem nothingStops : Obligations.NothingStops := ⟨exec_answers, step_answers⟩

end Sys2Proof.Machine
end

section
/-! SUPPORT. The statements about reset and the host's protocol (70_reset_and_hazards.md sections 1 and 2): the state
right after reset, what only reset undoes, and sixteen PUSH and a COMPRESS one after another. -/

namespace Sys2Proof.Machine

/-! Loading a block (R119 step 4). -/

/-- In IDLE, with the first `k` of the words `W` in the buffer, the others about to be pushed one after another and
then the samples `rest`; the state words and EBS are those of `s₀`. -/
structure Loading (t : Tables) (s₀ : State) (W : Vector Word 16) (rest : List Pins) (k : Nat) (s : State) : Prop where
  inv : s.Inv t
  idle : s.phase = .idle
  noReset : s.noReset
  h_eq : s.h = s₀.h
  EBS_eq : s.EBS = s₀.EBS
  wcnt_eq : s.wcnt.toNat = k
  loaded : ∀ i : Fin 16, i.val < k → s.X[i] = W[i]
  pins_eq : s.pins = (W.toList.drop k).map (fun w => ⟨false, packCmd 2 w⟩) ++ rest

/-- A step in IDLE with PUSH on the port is the effect of PUSH. -/
theorem step_push {s : State} {w : Word} (hp : s.phase = .idle) (hnext : s.nextPins = ⟨false, packCmd 2 w⟩) :
    step s = .next (pushEffect w s.dropPins) := by
  have decoded : decodeCmd (packCmd 2 w) = .push w := Except.ok.inj (decode_encode (.push w))
  rw [step_idle (congrArg Pins.rst hnext) hp, hnext, decoded]
  exact accept_idle (s := s.dropPins) hp _

section
variable {t : Tables} {s₀ s : State} {W : Vector Word 16} {rest : List Pins} {k : Nat}

/-- The pins, while a word is left to push. -/
theorem Loading.pins_cons (hs : Loading t s₀ W rest k s) (hk : k < 16) :
    s.pins = ⟨false, packCmd 2 W[k]⟩ :: ((W.toList.drop (k + 1)).map (fun w => ⟨false, packCmd 2 w⟩) ++ rest) := by
  rw [hs.pins_eq, List.drop_eq_getElem_cons (by simpa using hk)]
  simp

/-- R62: a step pushes the next word, behind those that are loaded. -/
theorem Loading.push_next (hs : Loading t s₀ W rest k s) (hk : k < 16) :
    ∃ u, step s = .next u ∧ Loading t s₀ W rest (k + 1) u := by
  have hpins := hs.pins_cons hk
  have room : s.dropPins.wcnt.toNat ≤ 15 := by simp only [dropPins_wcnt, hs.wcnt_eq]; omega
  have hstep : step s = .next (pushEffect W[k] s.dropPins) :=
    step_push hs.idle (by rw [State.nextPins, hpins, List.headD_cons])
  refine ⟨_, hstep, stepKeepsInvariant t _ _ hs.inv hstep, by simpa using hs.idle, ?_, by simpa using hs.h_eq,
    by simpa using hs.EBS_eq, ?_, fun i hi => ?_, by simp [hpins]⟩
  · have left := noReset_dropPins hs.noReset
    rwa [State.noReset, ← pushEffect_pins W[k]] at left
  · have count := hs.wcnt_eq
    rw [pushEffect_wcnt, if_pos room, dropPins_wcnt]
    bv_omega
  · have extended := getElem_set_eq_of_eq_below hk hk W[k] hs.loaded i hi
    rw [pushEffect_room room]
    simpa [hs.wcnt_eq] using extended

/-- The `d` words that are left are pushed in as many steps. -/
theorem Loading.pushes {d : Nat} (hs : Loading t s₀ W rest k s) (hd : k + d = 16) :
    ∃ u, steps d s = .next u ∧ Loading t s₀ W rest 16 u := by
  induction d generalizing k s with
  | zero =>
    obtain rfl : k = 16 := hd
    exact ⟨s, rfl, hs⟩
  | succ d ih =>
    obtain ⟨m, hstep, hm⟩ := hs.push_next (by omega)
    obtain ⟨u, hsteps, hu⟩ := ih hm (by omega)
    exact ⟨u, (steps_succ hstep).trans hsteps, hu⟩

/-- With all sixteen words loaded the buffer holds exactly these words. -/
theorem Loading.block_eq (hs : Loading t s₀ W rest 16 s) : s.X = W :=
  Vector.ext fun i hi => hs.loaded ⟨i, hi⟩ hi

end

/-- Settles O52: sixteen steps load the block, and COMPRESS with a full block does the rest. -/
theorem blockProtocolComputes : Obligations.BlockProtocolComputes := by
  intro t s W rest hi hp hw hn hpins
  have start : Loading t s W (⟨false, packCmd 3 0⟩ :: rest) 0 s :=
    ⟨hi, hp, hn, rfl, rfl, by simp [hw], fun _ h => absurd h (Nat.not_lt_zero _), hpins⟩
  obtain ⟨u, hload, full⟩ := start.pushes (d := 16) rfl
  have next_compress : cmdOp u.nextPins.cmd = 3 := by simp [State.nextPins, full.pins_eq]
  obtain ⟨n, s', hge, hle, hrun, idle, hh, hwcnt, hEBS, hERI, -⟩ := compressCommandComputes t u full.inv full.idle
    (BitVec.eq_of_toNat_eq full.wcnt_eq) full.noReset next_compress
  rw [full.h_eq, full.block_eq] at hh
  exact ⟨16 + n, s', by omega, by omega, (steps_add hload).trans hrun, idle, hh, hwcnt, hEBS.trans full.EBS_eq, hERI⟩

/-! Reset (R116, R117). -/

/-- R24: a round never clears ERI. -/
theorem issueRound_keeps_ERI (l : Line) (s s' : State) (raised : s.ERI = true) (h : issueRound l s = .next s') :
    s'.ERI = true := by
  rcases issueRound_cases l s with ⟨_, n, r, sh, he⟩ | ⟨_, he⟩ | ⟨_, he⟩ <;> cases he.symm.trans h
  · simpa using raised
  · rfl
  · exact raised

/-- R24: nor does any other micro-operation, whatever the schedule ROM holds. -/
theorem microStep_keeps_ERI {s s' : State} (raised : s.ERI = true) (h : microStep s = .next s') : s'.ERI = true := by
  by_cases ho : s.overrun
  · cases (microStep_overrun ho).symm.trans h
    rfl
  · rcases microStep_combine_or_frame h with ⟨-, rfl⟩ | ⟨hj, -⟩
    · exact raised
    · exact microStep_induction (P := fun a => a.ERI = true) issueRound_keeps_ERI raised (by simpa using raised) ho hj h

/-- R117: without reset a step keeps ERI raised. -/
theorem step_keeps_ERI {s s' : State} (h : step s = .next s') (hrst : s.nextPins.rst = false) (raised : s.ERI = true) :
    s'.ERI = true := by
  rcases step_cases h with ⟨hr, -⟩ | ⟨-, -, -, rfl⟩ | ⟨-, -, -, rfl⟩ | ⟨-, -, -, rfl⟩ | ⟨-, -, -, rfl⟩ |
    ⟨-, -, hm⟩ | ⟨-, -, rfl⟩
  · simp [hrst] at hr
  · exact raised
  · exact raised
  · simpa using raised
  · simpa using raised
  · exact microStep_keeps_ERI (s := s.dropPins) raised hm
  · exact raised

/-- Settles O35: the reset transition does not read CMD; without reset HALT is kept, and ERI by the cases of a step. -/
theorem resetTransitionRule : Obligations.ResetTransitionRule := by
  refine ⟨fun s hr => ⟨_, step_reset hr, rfl, rfl, rfl, rfl, rfl, rfl, rfl, rfl, rfl⟩, fun s w hr => ?_,
    fun s s' h hr => ⟨fun hp => ?_, step_keeps_ERI h hr⟩⟩
  · rw [step_reset hr]
    exact step_reset (s := { s with pins := ⟨true, w⟩ :: s.pins.tail }) rfl
  · cases (step_halt hr hp).symm.trans h
    exact hp

/-! The ports right after reset (R118). -/

/-- R30: the registers that have a value after reset. -/
structure JustReset (s : State) : Prop where
  h_eq : s.h = initialConstants
  idle : s.phase = .idle
  wcnt_eq : s.wcnt = 0
  EBS_eq : s.EBS = false
  ERI_eq : s.ERI = false

theorem justReset_resetTransition (s : State) : JustReset (resetTransition s) := ⟨rfl, rfl, rfl, rfl, rfl⟩

theorem justReset_reset : JustReset State.reset := ⟨rfl, rfl, rfl, rfl, rfl⟩

/-- R118: the ports show no register that reset leaves unspecified. -/
theorem JustReset.ports {s : State} (hs : JustReset s) :
    s.ready = true ∧ s.status = 0x00 ∧ s.digest = 0xC3D2E1F01032547698BADCFEEFCDAB8967452301 := by
  refine ⟨by simp [State.ready, hs.idle], ?_, ?_⟩
  · rw [State.status, State.busy, hs.ERI_eq, hs.EBS_eq, hs.idle, hs.wcnt_eq]
    decide
  · rw [State.digest, hs.h_eq]
    decide

/-- R118: what INIT writes already stands there. -/
theorem JustReset.init {s : State} (hs : JustReset s) (d : Word) : exec (.init d) s = .next s := by
  have same : initEffect s = s := by rw [initEffect, ← hs.h_eq, ← hs.wcnt_eq, ← hs.EBS_eq]
  exact (accept_idle hs.idle initEffect).trans (congrArg _ same)

/-- Settles O36: both states are ones right after reset. -/
theorem readyAfterReset : Obligations.ReadyAfterReset := by
  obtain ⟨ready, status, digest⟩ := justReset_reset.ports
  refine ⟨fun s hr => ⟨_, step_reset hr, ?_⟩, ready, status, digest, justReset_reset.init⟩
  have hs := justReset_resetTransition s.dropPins
  obtain ⟨ready, status, digest⟩ := hs.ports
  exact ⟨ready, status, digest, hs.init⟩

end Sys2Proof.Machine
end
